-- ==== Sys2Proof/Word.lean ====
section
/-!
DEFINITION. The vocabulary of the pins: levels, pin identifiers, platform errors, pin states, platform calls and
trace events (00_scope.md R8, R9, R10; 10_state.md R31; 20_memory.md R52, R67). The controller has no memory (R50),
so the one thing it addresses is a pin.
-/

namespace Sys2Proof

/-- A command word or a micro-operation word: 8 bits (30_encoding.md R85, R93). -/
abbrev Byte := BitVec 8

/-- A pin level (R9). Which level is which bit is `Level.bit` in Decode.lean. -/
inductive Level where
  | low
  | high
deriving DecidableEq, Repr, Inhabited

/-- A pin identifier. The spec leaves the type OPEN and asks for decidable equality only (R8): the model takes an
infinite set of labels and never uses a label as a number, but to sort the pin table. DESIGN CHOICE, safe (log 3). -/
structure PinId where
  label : Nat
deriving DecidableEq, Repr, Inhabited

/-- An error value of the platform pin layer. The spec leaves the type OPEN (R8); the controller only passes it on.
DESIGN CHOICE, safe (log 4). -/
structure PlatErr where
  label : Nat
deriving DecidableEq, Repr, Inhabited

/-- The role of a pin (41_sequencer.md R133). -/
inductive Role where
  | cs
  | clk
  | din
deriving DecidableEq, Repr

/-- The direction operand of CFG (R134): `out` or `in`. -/
inductive Dir where
  | inp
  | out
deriving DecidableEq, Repr

/-- How a pin is configured: as an output with its initial level, or as an input, whose level argument is `-` (R10,
R52). -/
inductive PinSetup where
  | out (l : Level)
  | inp
deriving DecidableEq, Repr

/-- The entry `Pins[p]` of the platform pin table (10_state.md R31). -/
inductive PinState where
  | free
  | out (l : Level)
  | inp
deriving DecidableEq, Repr, Inhabited

/-- What the pins a table does not list hold: all `free`, or whatever the launch of the machine found, which is any
table at all (70_reset_and_hazards.md R232; log 8). -/
inductive PinBase where
  | allFree
  | launch
deriving DecidableEq, Repr

/-- The platform pin table as plain data: an entry for every pin, namely the listed one, else that of the base.
`PinTable.wf` in Machine/Pins.lean is its canonical form. -/
structure PinTable where
  base : PinBase
  entries : List (PinId × PinState)
deriving DecidableEq, Repr

/-- The three times a WAIT can name (R8, R140). -/
inductive DelayKind where
  | tCslow
  | tConv
  | tPulse
deriving DecidableEq, Repr

/-- A call of one of the four platform operations (R52). -/
inductive PlatCall where
  | cfg (p : PinId) (c : PinSetup)
  | write (p : PinId) (l : Level)
  | read (p : PinId)
  | rel (p : PinId)
deriving DecidableEq, Repr

/-- The events of `TRACE` (20_memory.md R67). -/
inductive Event where
  | cfg (p : PinId) (c : PinSetup)
  | write (p : PinId) (l : Level)
  | read (p : PinId) (b : Level)
  | rel (p : PinId)
  | wait (k : DelayKind)
  | fail (c : PlatCall) (e : PlatErr)
deriving DecidableEq, Repr

end Sys2Proof
end

