-- ==== Sys2Proof/Config.lean ====
section
/-!
DEFINITION. What the spec leaves to the environment, as free values: opaque constants, about whose values nothing can
be proved; and the nominal lengths of the three delays.
-/

namespace Sys2Proof

/-- FREE VALUE (log 5). The platform failure oracle of 20_memory.md R55: whether the platform call numbered by the
first argument fails, and with what error, given the call, the pin table and the trace. -/
opaque Config.platformFails : Nat → PlatCall → PinTable → List Event → Option PlatErr

/-- FREE VALUE (log 6). The data-in oracle of 20_memory.md R63: the level a data-in read yields when it is platform
call number `n`. -/
opaque Config.dinLevel : Nat → Level

/-- FREE VALUE (log 8). The platform pin table at the launch: for every pin any entry at all (70_reset_and_hazards.md
R232: "any table"). -/
opaque Config.launchPins : PinId → PinState

/-- The nominal length of a delay in milliseconds: a lower bound on real time, used by no rule (R8, R68, R250). -/
def Config.nominalMs : DelayKind → Nat
  | .tCslow => 2
  | .tConv => 220
  | .tPulse => 1

end Sys2Proof
end

