-- ==== Sys2Proof/Syntax.lean ====
section
/-!
DEFINITION. The instructions: the five rows of format H (host commands) and the thirteen rows of format U
(micro-operations) of spec/opcode_table.json, one constructor each; and what carries them: a host command word with its
operand lines, or a micro-operation word.
-/

namespace Sys2Proof

/-- The output units (10_state.md R27). Three constructors: the code 3 is never held (U14). -/
inductive TempUnit where
  | raw
  | celsius
  | fahrenheit
deriving DecidableEq, Repr

/-- One constructor per row of spec/opcode_table.json. The three INIT rows are one instruction with one rule (R86). -/
inductive Instr where
  | initRaw (cs clk din : PinId)
  | initC (cs clk din : PinId)
  | initF (cs clk din : PinId)
  | read
  | teardown
  | csl
  | csh
  | ckl
  | ckh
  | smpd (i : Fin 12)
  | smpf
  | wait (k : DelayKind)
  | clr
  | conv
  | cfg (r : Role) (d : Dir) (l : Level)
  | rel (r : Role)
  | rdy
  | rls
deriving DecidableEq, Repr

/-- The operation a format-H word selects: `op[7:6]` with, for INIT, `unit[5:4]` (30_encoding.md R85). -/
inductive HostOp where
  | init (u : TempUnit)
  | read
  | teardown
deriving DecidableEq, Repr

/-- What the host presents at the command port: the word and the three operand lines beside it, in the order
chip-select, clock, data-in (30_encoding.md R85, R87). -/
structure HostCmd where
  word : Byte
  cs : PinId
  clk : PinId
  din : PinId
deriving DecidableEq, Repr

/-- An encoded instruction, in the format that carries it: format H at the command port, format U in the ROM. -/
inductive Code where
  | command (c : HostCmd)
  | micro (b : Byte)
deriving DecidableEq, Repr

end Sys2Proof
end

