-- ==== Sys2Proof/WellFormed.lean ====
section
/-!
DEFINITION. Which instructions have an encoding. The types of Syntax.lean leave one check: a CFG with direction `in` has
level bit 0 (30_encoding.md R94, "`CFG` ... with `d = 0, l = 1`").
-/

namespace Sys2Proof

/-- Every instruction is well formed but a CFG that configures an input with a high level. -/
def Instr.wellFormed : Instr → Bool
  | .cfg _ .inp .high => false
  | .cfg _ .inp .low => true
  | .cfg _ .out _ => true
  | .initRaw _ _ _ | .initC _ _ _ | .initF _ _ _ | .read | .teardown => true
  | .csl | .csh | .ckl | .ckh | .smpd _ | .smpf | .wait _ | .clr | .conv => true
  | .rel _ | .rdy | .rls => true

/-- The well-formed instructions. -/
abbrev WellFormed (i : Instr) : Prop := i.wellFormed = true

end Sys2Proof
end

