-- ==== Sys2Proof/Decode.lean ====
section
/-!
DEFINITION. Decoding and encoding of formats H and U (30_encoding.md R85 to R87, R92 to R94), the numeric codes of units,
roles, levels and delays, and the reading of the opcode table's words. Decoding is total and rejects by name.
-/

namespace Sys2Proof

/-- Why a word is no instruction. -/
inductive DecodeError where
  /-- Format H, `op = 3` (R92). -/
  | reservedOp
  /-- Format H, INIT with `unit = 3`, or READ or TEARDOWN with a unit (R92). -/
  | reservedUnit
  /-- Format H, a non-zero bit in [3:0] (R92). -/
  | nonzeroLow
  /-- Format U, bits [7:4] select no operation (R94). -/
  | noMicroOperation
  /-- Format U, the argument bits are not among those the operation allows (R94). -/
  | badArgument
deriving DecidableEq, Repr

/-! ### Numeric codes -/

/-- high = 1, low = 0 (R9). -/
def Level.bit : Level → BitVec 1
  | .low => 0#1
  | .high => 1#1

/-- The level as a number. -/
def Level.toNat : Level → Nat
  | .low => 0
  | .high => 1

/-- The level a bit stands for (R9). -/
def levelOfBool : Bool → Level
  | false => .low
  | true => .high

/-- `UNIT` codes: 0 = Raw, 1 = Celsius, 2 = Fahrenheit (R27). -/
def TempUnit.code : TempUnit → BitVec 2
  | .raw => 0#2
  | .celsius => 1#2
  | .fahrenheit => 2#2

/-- Role codes: 0 = CS, 1 = CLK, 2 = DIN (R133). -/
def Role.code : Role → BitVec 2
  | .cs => 0#2
  | .clk => 1#2
  | .din => 2#2

/-- Direction codes: 1 = out, 0 = in (R134). -/
def Dir.code : Dir → BitVec 1
  | .inp => 0#1
  | .out => 1#1

/-- Delay codes: 0 = T_CSLOW, 1 = T_CONV, 2 = T_PULSE (R140). -/
def DelayKind.code : DelayKind → BitVec 2
  | .tCslow => 0#2
  | .tConv => 1#2
  | .tPulse => 2#2

/-- The role a code names; 3 is not used (R133). -/
def roleOf : Nat → Option Role
  | 0 => some .cs
  | 1 => some .clk
  | 2 => some .din
  | _ => none

/-- The delay a code names; 3 is not used (R94). -/
def delayOf : Nat → Option DelayKind
  | 0 => some .tCslow
  | 1 => some .tConv
  | 2 => some .tPulse
  | _ => none

/-! ### Format H -/

/-- The operation a format-H word selects (R85, R86, R92). -/
def decodeOp (w : Byte) : Except DecodeError HostOp :=
  match (w.extractLsb' 6 2).toNat, (w.extractLsb' 4 2).toNat, (w.extractLsb' 0 4).toNat with
  | 3, _, _ => .error .reservedOp
  | 0, 0, 0 => .ok (.init .raw)
  | 0, 1, 0 => .ok (.init .celsius)
  | 0, 2, 0 => .ok (.init .fahrenheit)
  | 1, 0, 0 => .ok .read
  | 2, 0, 0 => .ok .teardown
  | _, _, 0 => .error .reservedUnit
  | _, _, _ => .error .nonzeroLow

/-- The instruction of an operation with the operand lines; READ and TEARDOWN ignore them (R87). -/
def hostInstr (op : HostOp) (c : HostCmd) : Instr :=
  match op with
  | .init .raw => .initRaw c.cs c.clk c.din
  | .init .celsius => .initC c.cs c.clk c.din
  | .init .fahrenheit => .initF c.cs c.clk c.din
  | .read => .read
  | .teardown => .teardown

/-- The command a format-H word stands for, with its operand lines (R85, R86, R87). -/
def decodeH (c : HostCmd) : Except DecodeError Instr :=
  match decodeOp c.word with
  | .ok op => .ok (hostInstr op c)
  | .error e => .error e

/-- A format-H word from its fields `op[7:6]`, `unit[5:4]`, zero `[3:0]` (R85). -/
def wordH (op unit : BitVec 2) : Byte := op ++ unit ++ 0#4

/-! ### Format U -/

/-- The CFG argument `rrdl` (R93, R134). -/
def decodeCfg (arg : BitVec 4) : Except DecodeError Instr :=
  match roleOf (arg.extractLsb' 2 2).toNat, arg.getLsbD 1, arg.getLsbD 0 with
  | none, _, _ => .error .badArgument
  | some _, false, true => .error .badArgument
  | some r, false, false => .ok (.cfg r .inp .low)
  | some r, true, l => .ok (.cfg r .out (levelOfBool l))

/-- The micro-operation a format-U word stands for: bits [7:4] select the operation, bits [3:0] are its argument (R93,
R94). -/
def decodeU (b : Byte) : Except DecodeError Instr :=
  let arg := b.extractLsb' 0 4
  match (b.extractLsb' 4 4).toNat, arg.toNat with
  | 0x1, 0 => .ok .csl
  | 0x1, 1 => .ok .csh
  | 0x2, 0 => .ok .ckl
  | 0x2, 1 => .ok .ckh
  | 0x3, i => if h : i < 12 then .ok (.smpd ⟨i, h⟩) else .error .badArgument
  | 0x4, 0 => .ok .smpf
  | 0x5, k => match delayOf k with
    | some k => .ok (.wait k)
    | none => .error .badArgument
  | 0x6, 0 => .ok .clr
  | 0x7, 0 => .ok .conv
  | 0x8, _ => decodeCfg arg
  | 0x9, r => match roleOf r with
    | some r => .ok (.rel r)
    | none => .error .badArgument
  | 0xA, 0 => .ok .rdy
  | 0xB, 0 => .ok .rls
  | 0x0, _ | 0xC, _ | 0xD, _ | 0xE, _ | 0xF, _ => .error .noMicroOperation
  | _, _ => .error .badArgument

/-- A format-U word from its operation and argument (R93). -/
def wordU (op arg : BitVec 4) : Byte := op ++ arg

/-! ### Both formats -/

/-- The instruction an encoding stands for, in the format that carries it. -/
def decode : Code → Except DecodeError Instr
  | .command c => decodeH c
  | .micro b => decodeU b

/-- The encoding of an instruction (R86, R93). READ and TEARDOWN put label 0 on the operand lines, which they ignore
(R87). DESIGN CHOICE, safe (log 22). -/
def encode : Instr → Code
  | .initRaw cs clk din => .command ⟨wordH 0#2 TempUnit.raw.code, cs, clk, din⟩
  | .initC cs clk din => .command ⟨wordH 0#2 TempUnit.celsius.code, cs, clk, din⟩
  | .initF cs clk din => .command ⟨wordH 0#2 TempUnit.fahrenheit.code, cs, clk, din⟩
  | .read => .command ⟨wordH 1#2 0#2, ⟨0⟩, ⟨0⟩, ⟨0⟩⟩
  | .teardown => .command ⟨wordH 2#2 0#2, ⟨0⟩, ⟨0⟩, ⟨0⟩⟩
  | .csl => .micro (wordU 0x1#4 0#4)
  | .csh => .micro (wordU 0x1#4 1#4)
  | .ckl => .micro (wordU 0x2#4 0#4)
  | .ckh => .micro (wordU 0x2#4 1#4)
  | .smpd i => .micro (wordU 0x3#4 (BitVec.ofNat 4 i.val))
  | .smpf => .micro (wordU 0x4#4 0#4)
  | .wait k => .micro (wordU 0x5#4 (0#2 ++ k.code))
  | .clr => .micro (wordU 0x6#4 0#4)
  | .conv => .micro (wordU 0x7#4 0#4)
  | .cfg r d l => .micro (wordU 0x8#4 (r.code ++ d.code ++ l.bit))
  | .rel r => .micro (wordU 0x9#4 (0#2 ++ r.code))
  | .rdy => .micro (wordU 0xA#4 0#4)
  | .rls => .micro (wordU 0xB#4 0#4)

/-- The word of an encoding, without the operand lines: what spec/opcode_table.json gives bits to. -/
def Code.word : Code → Byte
  | .command c => c.word
  | .micro b => b

/-- A host command with every operand line at label 0. -/
def bareCmd (w : Byte) : HostCmd := ⟨w, ⟨0⟩, ⟨0⟩, ⟨0⟩⟩

/-- The instruction read from a word of spec/opcode_table.json. The words `0x10`, `0x20`, `0x40` and `0x80` stand in
both formats and nothing in the word says which: format H is tried first, because after reset the controller takes
its next instruction from the command port. DESIGN CHOICE, unsafe for those four words (log 12). -/
def decodeTableWord (nbits w : Nat) : Option Instr :=
  if nbits = 8 ∧ w < 256 then
    match decodeH (bareCmd (BitVec.ofNat 8 w)) with
    | .ok i => some i
    | .error _ =>
      match decodeU (BitVec.ofNat 8 w) with
      | .ok i => some i
      | .error _ => none
  else none

end Sys2Proof
end

