-- ==== Sys2Proof/Machine/Pins.lean ====
section
/-!
DEFINITION. The platform pin table (10_state.md R31; 20_memory.md R51, R54): reading one entry, writing one entry,
the canonical form, and what a successful platform call does to the table.
-/

namespace Sys2Proof

/-- The entry an unlisted pin holds (R31, R232). -/
def PinBase.entry : PinBase → PinId → PinState
  | .allFree, _ => .free
  | .launch, p => Config.launchPins p

/-- The first entry listed for a pin. -/
def PinTable.find : List (PinId × PinState) → PinId → Option PinState
  | [], _ => none
  | (q, x) :: rest, p => if q = p then some x else PinTable.find rest p

/-- `Pins[p]`. -/
def PinTable.get (t : PinTable) (p : PinId) : PinState := (PinTable.find t.entries p).getD (t.base.entry p)

/-- Strike every entry for a pin. -/
def PinTable.erase : List (PinId × PinState) → PinId → List (PinId × PinState)
  | [], _ => []
  | (q, x) :: rest, p => if q = p then PinTable.erase rest p else (q, x) :: PinTable.erase rest p

/-- Enter a pin at its place by label, over an entry that stands there. -/
def PinTable.enter : List (PinId × PinState) → PinId → PinState → List (PinId × PinState)
  | [], p, x => [(p, x)]
  | (q, y) :: rest, p, x =>
    if p.label < q.label then (p, x) :: (q, y) :: rest
    else if q = p then (p, x) :: rest
    else (q, y) :: PinTable.enter rest p x

/-- `Pins[p] <- x`, keeping the canonical form: the entry an unlisted pin holds is not listed. -/
def PinTable.put (t : PinTable) (p : PinId) (x : PinState) : PinTable :=
  if x = t.base.entry p then { t with entries := PinTable.erase t.entries p }
  else { t with entries := PinTable.enter t.entries p x }

/-- The canonical form of a pin table: the labels rise strictly, and no pin is listed with the entry it holds unlisted.
Tables over one base that read the same are then equal data. -/
def PinTable.wf (t : PinTable) : Bool :=
  decide (t.entries.Pairwise fun a b => a.1.label < b.1.label) &&
    t.entries.all fun c => decide (c.2 ≠ t.base.entry c.1)

/-- The entry a configuration leaves (R54). -/
def PinSetup.state : PinSetup → PinState
  | .out l => .out l
  | .inp => .inp

/-- The effect of a successful call on the pin table (R31, R54). -/
def PlatCall.effect : PlatCall → PinTable → PinTable
  | .cfg p c, t => t.put p c.state
  | .write p l, t => t.put p (.out l)
  | .read _, t => t
  | .rel p, t => t.put p .free

/-- The event a successful call appends (R67); `b` is the level a read yielded. -/
def PlatCall.event : PlatCall → Level → Event
  | .cfg p c, _ => .cfg p c
  | .write p l, _ => .write p l
  | .read p, b => .read p b
  | .rel p, _ => .rel p

end Sys2Proof
end

