-- ==== Sys2Proof/Machine/State.lean ====
section
/-!
DEFINITION. The state of the controller (10_state.md R20 to R36), the trace, the part of the environment the controller
can change or observe, the reasons a step can stop, and the state after reset.
-/

namespace Sys2Proof.Machine

/-- The lifecycle states (R26). Three constructors: the code 3 is never held (U14). -/
inductive Lifecycle where
  | uninitialized
  | ready
  | released
deriving DecidableEq, Repr

/-- Which micro-program runs (R24). -/
inductive Prog where
  | idle
  | initP
  | readP
  | tdP
deriving DecidableEq, Repr

/-- `UPC`, the sequencer position: the pair (prog, idx), 2 + 6 bits (R24). -/
structure Upc where
  prog : Prog
  idx : BitVec 6
deriving DecidableEq, Repr

/-- `RESP_INFO`, the side value of an `Err` response (R29, 60_exceptions.md R200). -/
inductive RespInfo where
  | none
  | distinct
  | config (r : Role) (e : PlatErr)
  | io (e : PlatErr)
deriving DecidableEq, Repr

/-- The exceptions with what they record (60_exceptions.md R200). -/
inductive Exc where
  | pinNotDistinct
  | pinConfig (r : Role) (e : PlatErr)
  | pinIO (e : PlatErr)
  | invalidState
  | illegalCommand
deriving DecidableEq, Repr

/-- The responses (30_encoding.md R95), as `respond` is given them; `raise` makes the `Err` ones. -/
inductive Response where
  | ok
  | value (v : BitVec 16)
  | fault
  | err (x : Exc)
deriving DecidableEq, Repr

/-- Which stand-in answers the platform calls that `callScript` does not: any answer at all (20_memory.md R55), or the
ideal platform, whose refusals carry the error `e` (R56). Environment (log 7). -/
inductive Platform where
  | oracle
  | ideal (e : PlatErr)
deriving DecidableEq, Repr

/-- Which stand-in answers the data-in reads that `dinScript` does not: any level at all (20_memory.md R63), or the
frame source with its frames `F_1, F_2, ...` (R64). Environment (log 7). -/
inductive Sensor where
  | oracle
  | frames (fs : List (BitVec 16))
deriving DecidableEq, Repr

/-- Reasons the machine stops with a fault: there are none. What R11 calls a fault is a command that ends with an `Err`
response, and after that the machine goes on: such a step answers a next state (R206, R209; log 2). Whatever has no step at
all is a refusal. -/
inductive Fault where
deriving DecidableEq, Repr

/-- Reasons there is no step (R11). -/
inductive Refusal where
  /-- Raised by `exec` for an instruction that has no meaning yet. Safe. -/
  | notModelled (mnemonic : String)
  /-- Raised by a host command executed, or run as a whole by `runCommand`, while a micro-program runs: "the host has no
  step" (R11, R70, U7). By the spec's own remark it errs toward proving if a host could do it: unsafe (log 15). -/
  | commandWhileBusy
  /-- Raised by `State.restart` while a micro-program runs: a reset in the middle of a command has no step (R11, R233, U8).
  The spec has it toward unprovable (D21); a claim about all runs leaves such a reset out: unsafe (log 19). -/
  | resetWhileBusy
  /-- Raised by a micro-operation executed while no micro-program runs: the sequencer steps only when
  `UPC.prog != Idle` (R130). Safe (log 15). -/
  | sequencerIdle
  /-- Raised by a CFG that no format-U word stands for: "a model should have no step for them" (R94, U13). Safe
  (log 16). -/
  | noMicroOperation
  /-- Raised by `step` when `UPC` names no entry of its micro-program. The spec gives such a `UPC` no step: `idx` never
  passes the last entry (R24), so no run reaches it. Safe (log 16). -/
  | noRomEntry
  /-- Raised by `step` for a ROM word that is no micro-operation (R94, U13); the ROM holds none. Safe (log 16). -/
  | invalidMicroWord (b : Byte)
deriving DecidableEq, Repr

/-- The state: the controller's registers (R20), the ghost trace (R33), and the environment as far as the controller
can change or observe it (R31), with what it will answer written as plain data. -/
structure State where
  /-- `LIFECYCLE` (R26). -/
  lifecycle : Lifecycle
  /-- `UNIT` (R27). -/
  unit : TempUnit
  /-- `PIN_CS` (R28). -/
  pinCs : PinId
  /-- `PIN_CLK` (R28). -/
  pinClk : PinId
  /-- `PIN_DIN` (R28). -/
  pinDin : PinId
  /-- `RAW[11:0]` (R21). -/
  raw : BitVec 12
  /-- `FAULT` (R22). -/
  fault : BitVec 1
  /-- `UPC` (R24). -/
  upc : Upc
  /-- `RESP[17:0]` (R29). -/
  resp : BitVec 18
  /-- `RESP_INFO` (R29). -/
  respInfo : RespInfo
  /-- `RESP_VALID` (R29). -/
  respValid : Bool
  /-- `TRACE`, ghost state, oldest event first (R33). -/
  trace : List Event
  /-- The platform pin table `Pins` (R31). Environment. -/
  pins : PinTable
  /-- The answers of the next platform calls, one each: `none` is success (R55). Environment, the model's own (log 5). -/
  callScript : List (Option PlatErr)
  /-- Who answers when `callScript` is used up (R55, R56). Environment, the model's own (log 7). -/
  platform : Platform
  /-- The levels of the next data-in reads, one each (R63). Environment, the model's own (log 6). -/
  dinScript : List Level
  /-- Who answers when `dinScript` is used up (R63, R64). Environment, the model's own (log 7). -/
  sensor : Sensor
  /-- The commands the host will present, one at each idle moment (R110). Environment, the model's own (log 11). -/
  hostProgram : List HostCmd
  /-- How many platform calls have been made: the number that makes a free value fresh. The model's own (log 10). -/
  draws : Nat
  /-- How many READs have been admitted: the frame source's `n` (R64). The model's own (log 21). -/
  readNo : Nat
deriving DecidableEq, Repr

/-- The state after reset (R36, R231). `LIFECYCLE`, `UPC`, `RESP_VALID` and `TRACE` are the spec's; the pin table is
whatever the launch found, unchanged (R232, log 8); `UNIT`, the pin registers, `RAW`, `FAULT`, `RESP` and `RESP_INFO` are
unspecified there and hold the values log 9 names; the environment's answers are those of log 10. -/
def State.reset : State where
  lifecycle := .uninitialized
  unit := .raw
  pinCs := ⟨0⟩
  pinClk := ⟨0⟩
  pinDin := ⟨0⟩
  raw := 0#12
  fault := 0#1
  upc := ⟨.idle, 0#6⟩
  resp := 0#18
  respInfo := .none
  respValid := false
  trace := []
  pins := ⟨.launch, []⟩
  callScript := []
  platform := .oracle
  dinScript := []
  sensor := .oracle
  hostProgram := []
  draws := 0
  readNo := 0

end Sys2Proof.Machine
end

