-- ==== Sys2Proof/Machine/Operands.lean ====
section
/-!
DEFINITION. The operand forms: a role selects a pin register (41_sequencer.md R133), a direction and a level make a
configuration (R134), a bit index selects a bit of RAW (42_deserializer.md R161); and the numeric codes of the lifecycle
and of the micro-programs (10_state.md R24, R26).
-/

namespace Sys2Proof.Machine

/-- The pin register a role selects (R133). -/
def State.pin (s : State) : Role → PinId
  | .cs => s.pinCs
  | .clk => s.pinClk
  | .din => s.pinDin

/-- The configuration CFG asks for; for an input the level argument is `-` (R134). -/
def setupOf : Dir → Level → PinSetup
  | .inp, _ => .inp
  | .out, l => .out l

/-- `RAW[i] <- b`: bit `i` becomes `b`, every other bit is kept (R93, R161; log 14). -/
def setRawBit (raw : BitVec 12) (i : Fin 12) (b : Level) : BitVec 12 :=
  match b with
  | .high => raw ||| (1#12 <<< i.val)
  | .low => raw &&& ~~~(1#12 <<< i.val)

/-- The three pin identifiers are pairwise distinct (R28, R112). -/
abbrev pinsDistinct (cs clk din : PinId) : Prop := cs ≠ clk ∧ cs ≠ din ∧ clk ≠ din

/-- `LIFECYCLE` codes (R26). -/
def Lifecycle.code : Lifecycle → BitVec 2
  | .uninitialized => 0#2
  | .ready => 1#2
  | .released => 2#2

/-- `UPC.prog` codes (R24). -/
def Prog.code : Prog → BitVec 2
  | .idle => 0#2
  | .initP => 1#2
  | .readP => 2#2
  | .tdP => 3#2

end Sys2Proof.Machine
end

