-- ==== Sys2Proof/Machine/Flags.lean ====
section
/-!
DEFINITION. The flags and the response word: BUSY (10_state.md R25), the exception codes and what each records
(60_exceptions.md R200), and format R (30_encoding.md R95).
-/

namespace Sys2Proof.Machine

/-- `BUSY`: the condition `UPC.prog != Idle` (R25). -/
abbrev State.busy (s : State) : Prop := s.upc.prog ≠ .idle

/-- The exception codes (R200). -/
def Exc.code : Exc → BitVec 3
  | .pinNotDistinct => 1#3
  | .pinConfig _ _ => 1#3
  | .pinIO _ => 2#3
  | .invalidState => 3#3
  | .illegalCommand => 4#3

/-- What an exception records in `RESP_INFO` (R200). -/
def Exc.info : Exc → RespInfo
  | .pinNotDistinct => .distinct
  | .pinConfig r e => .config r e
  | .pinIO e => .io e
  | .invalidState => .none
  | .illegalCommand => .none

/-- Format R: tag in [17:16], payload in [15:0]; `Ok` is `0x00000`, `Value` with payload `v` is `0x10000 + v`, `Fault` is
`0x20000`, `Err` with code `c` is `0x30000 + c` (R29, R95). -/
def Response.word : Response → BitVec 18
  | .ok => 0x00000#18
  | .value v => 0x10000#18 + v.zeroExtend 18
  | .fault => 0x20000#18
  | .err x => 0x30000#18 + x.code.zeroExtend 18

/-- The side value that goes with a response: none but for an `Err` (R95; log 13). -/
def Response.info : Response → RespInfo
  | .ok => .none
  | .value _ => .none
  | .fault => .none
  | .err x => x.info

end Sys2Proof.Machine
end

