-- ==== Sys2Proof/Machine/Ops.lean ====
section
/-!
DEFINITION. The shared operations: ending a micro-program (00_scope.md R10 `respond`), taking an exception
(60_exceptions.md R206 `raise`), advancing the sequencer (R10), the answers of the platform and of the sensor
(20_memory.md R55, R56, R63, R64), one platform call (R54, R55, 41_sequencer.md R132), and a delay (R68).
-/

namespace Sys2Proof.Machine

/-! ### Control -/

/-- Write a response to `RESP`, with its side value, and go idle: what `respond` and `raise` share (R10, R206). -/
def State.answer (s : State) (r : Response) : State :=
  { s with resp := r.word, respInfo := r.info, respValid := true, upc := ⟨.idle, 0#6⟩ }

/-- `respond r` (R10). -/
def State.respond (s : State) (r : Response) : State := s.answer r

/-- `raise E(info)`: taking an exception (R206). There is no handler, no vector and no saved program counter: the
exception ends the command, and a TEARDOWN that fails still ends the driver's life. -/
def State.raise (s : State) (x : Exc) : State :=
  { s.answer (.err x) with lifecycle := if s.upc.prog = .tdP then .released else s.lifecycle }

/-- `upc <- upc + 1` (R10, R24). -/
def State.advance (s : State) : State := { s with upc := { s.upc with idx := s.upc.idx + 1 } }

/-- A micro-operation executes only while a micro-program runs (R130; log 15). -/
def State.whileRunning (s t : State) : Host.Outcome State Fault Refusal :=
  if s.upc.prog = .idle then .refused .sequencerIdle else .next t

/-- A host command is admitted only while the sequencer is idle (R70, R110; log 15). -/
def State.whileIdle (s t : State) : Host.Outcome State Fault Refusal :=
  if s.upc.prog = .idle then .next t else .refused .commandWhileBusy

/-! ### The environment's answers -/

/-- The ideal platform: only the configuration of a pin that is not Free fails (R56). -/
def idealAnswer (e : PlatErr) (c : PlatCall) (pins : PinTable) : Option PlatErr :=
  match c with
  | .cfg p _ => if pins.get p = .free then none else some e
  | .write _ _ => none
  | .read _ => none
  | .rel _ => none

/-- Whether the next platform call fails, and with what error (R55): the next scripted answer, else the stand-in's. -/
def State.platformAnswer (s : State) (c : PlatCall) : Option PlatErr :=
  match s.callScript with
  | a :: _ => a
  | [] =>
    match s.platform with
    | .ideal e => idealAnswer e c s.pins
    | .oracle => Config.platformFails s.draws c s.pins s.trace

/-- The number of `Write(PIN_CLK, 1)` events since the most recent `Write(PIN_CS, 0)`, in a trace given newest event
first; `none` if chip-select was never written low (R64). -/
def clockHighs (cs clk : PinId) : List Event → Option Nat
  | [] => none
  | ev :: older =>
    if ev = .write cs .low then some 0
    else if ev = .write clk .high then (clockHighs cs clk older).map (· + 1)
    else clockHighs cs clk older

/-- What the frame source `F_1, F_2, ...` answers during the `n`-th READ: bit `F_n[16 - k]` for `1 <= k <= 16`;
elsewhere it specifies nothing (R64; log 21). -/
def frameAnswer (fs : List (BitVec 16)) (n : Nat) (k : Option Nat) : Option Level :=
  match n, k with
  | m + 1, some k =>
    if 1 ≤ k ∧ k ≤ 16 then (fs[m]?).map (fun f => levelOfBool (f.getLsbD (16 - k))) else none
  | _, _ => none

/-- The level the next data-in read yields if it does not fail (R63): the next scripted level, else the frame source's
bit where it specifies one, else a free value. -/
def State.dinAnswer (s : State) : Level :=
  match s.dinScript with
  | l :: _ => l
  | [] =>
    match s.sensor with
    | .frames fs =>
      (frameAnswer fs s.readNo (clockHighs s.pinCs s.pinClk s.trace.reverse)).getD (Config.dinLevel s.draws)
    | .oracle => Config.dinLevel s.draws

/-! ### Platform calls and delays -/

/-- A platform call has been answered: one event is appended, one scripted answer and one number are used up. -/
def State.answered (s : State) (ev : Event) : State :=
  { s with trace := s.trace ++ [ev], callScript := s.callScript.tail, draws := s.draws + 1 }

/-- One platform call: on success its event is appended and it takes effect on the pin table (R54), and `k` goes on; on
failure the `Fail` event is appended, nothing else of the environment changes (R55), and `onFail` is raised (R132). -/
def State.call (s : State) (c : PlatCall) (onFail : PlatErr → Exc) (k : State → State) : State :=
  match s.platformAnswer c with
  | none => k { s.answered (c.event s.dinAnswer) with pins := c.effect s.pins }
  | some e => (s.answered (.fail c e)).raise (onFail e)

/-- `PinWrite(p, l)` of a micro-operation, which then advances (R136 to R139). -/
def State.pinWrite (s : State) (p : PinId) (l : Level) : State :=
  s.call (.write p l) .pinIO State.advance

/-- `b <- PinRead(PIN_DIN)` of a micro-operation, which then does `k b` and advances (R161, R162). -/
def State.pinRead (s : State) (k : Level → State → State) : State :=
  s.call (.read s.pinDin) .pinIO fun t =>
    (k s.dinAnswer { t with dinScript := t.dinScript.tail }).advance

/-- `Delay(k)`: appends `Wait(k)`; nothing else changes (R68). -/
def State.delay (s : State) (k : DelayKind) : State := { s with trace := s.trace ++ [.wait k] }

/-! ### Admission -/

/-- The first action of the host step: `RESP_VALID <- 0` (R110). -/
def State.present (s : State) : State := { s with respValid := false }

/-- Admission of a reserved word: IllegalCommand, no other change (R110, R204). -/
def State.admitReserved (s : State) : State := s.present.raise .illegalCommand

/-- Admission of INIT (R110, R112): the lifecycle test, then `UNIT` and the pin registers, then the distinctness check,
then the start of `InitP`. -/
def State.admitInit (s : State) (u : TempUnit) (cs clk din : PinId) : State :=
  if s.lifecycle ≠ .uninitialized then s.present.raise .invalidState
  else
    let t := { s.present with unit := u, pinCs := cs, pinClk := clk, pinDin := din }
    if pinsDistinct cs clk din then { t with upc := ⟨.initP, 0#6⟩ } else t.raise .pinNotDistinct

/-- Admission of READ (R110); the READ is counted for the frame source (R64). -/
def State.admitRead (s : State) : State :=
  if s.lifecycle ≠ .ready then s.present.raise .invalidState
  else { s.present with upc := ⟨.readP, 0#6⟩, readNo := s.readNo + 1 }

/-- Admission of TEARDOWN (R110, R118). -/
def State.admitTeardown (s : State) : State :=
  match s.lifecycle with
  | .uninitialized => s.present.raise .invalidState
  | .released => s.present.respond .ok
  | .ready => { s.present with upc := ⟨.tdP, 0#6⟩ }

end Sys2Proof.Machine
end

