-- ==== Sys2Proof/Machine/Converter.lean ====
section
/-!
DEFINITION. The temperature scale converter (43_converter.md): the exact conversion (R182), its scaled integer (R186),
and CONV (R180).
-/

namespace Sys2Proof.Machine

/-- `convert(UNIT, r)`, an exact rational (R182). -/
def convert (u : TempUnit) (r : BitVec 12) : ℚ :=
  match u with
  | .raw => r.toNat
  | .celsius => r.toNat * (1 / 4)
  | .fahrenheit => r.toNat * (1 / 4) * (9 / 5) + 32

/-- `scale(UNIT)` (R96, R186). -/
def scale : TempUnit → ℚ
  | .raw => 1
  | .celsius => 1 / 4
  | .fahrenheit => 1 / 20

/-- `VALUE(UNIT, r)`, the 16-bit scaled integer of the response word (R186). -/
def scaledValue (u : TempUnit) (r : BitVec 12) : BitVec 16 :=
  match u with
  | .raw => r.zeroExtend 16
  | .celsius => r.zeroExtend 16
  | .fahrenheit => 9#16 * r.zeroExtend 16 + 640#16

/-- `CONV`: the fault test comes first (R181), then the conversion; either way it responds (R180). -/
def execConv (s : State) : Host.Outcome State Fault Refusal :=
  s.whileRunning
    (if s.fault = 1#1 then s.respond .fault else s.respond (.value (scaledValue s.unit s.raw)))

end Sys2Proof.Machine
end

