-- ==== Sys2Proof/Machine/Deserializer.lean ====
section
/-!
DEFINITION. The micro-operations of the deserializer (42_deserializer.md R160 to R162), and the two descriptions of the
assembly the spec compares: the indexed sum (R165) and the shift register (R166).
-/

namespace Sys2Proof.Machine

/-- `CLR` (R160). -/
def execClr (s : State) : Host.Outcome State Fault Refusal :=
  s.whileRunning { s with raw := 0#12, fault := 0#1 }.advance

/-- `SMPD i` (R161). -/
def execSmpd (i : Fin 12) (s : State) : Host.Outcome State Fault Refusal :=
  s.whileRunning (s.pinRead fun b t => { t with raw := setRawBit t.raw i b })

/-- `SMPF` (R162). -/
def execSmpf (s : State) : Host.Outcome State Fault Refusal :=
  s.whileRunning (s.pinRead fun b t => { t with fault := b.bit })

/-- The sum of `sampled_bit * 2^index` over the twelve data bits, `b i` being the bit of index `i` (R82, R165). -/
def indexedSum (b : Fin 12 → Level) : Nat := ∑ i : Fin 12, (b i).toNat * 2 ^ i.val

/-- One sample into the 12-bit shift register: `S <- (S[10:0] ++ b)` (R166). -/
def shiftIn (S : BitVec 12) (b : Level) : BitVec 12 := S.extractLsb' 0 11 ++ b.bit

end Sys2Proof.Machine
end

