-- ==== Sys2Proof/Machine/HostCommands.lean ====
section
/-!
DEFINITION. The host commands (40_host_commands.md). Executing one is its admission, one step (R110); its micro-program
then runs by the sequencer's steps (R130), and the command as a whole is `runCommand` in Command.lean (R131).
-/

namespace Sys2Proof.Machine

/-- INIT with unit Raw (R110, R111). -/
def execInitRaw (cs clk din : PinId) (s : State) : Host.Outcome State Fault Refusal :=
  s.whileIdle (s.admitInit .raw cs clk din)

/-- INIT with unit Celsius (R110, R111). -/
def execInitC (cs clk din : PinId) (s : State) : Host.Outcome State Fault Refusal :=
  s.whileIdle (s.admitInit .celsius cs clk din)

/-- INIT with unit Fahrenheit (R110, R111). -/
def execInitF (cs clk din : PinId) (s : State) : Host.Outcome State Fault Refusal :=
  s.whileIdle (s.admitInit .fahrenheit cs clk din)

/-- READ (R110, R114). -/
def execRead (s : State) : Host.Outcome State Fault Refusal := s.whileIdle s.admitRead

/-- TEARDOWN (R110, R117, R118). -/
def execTeardown (s : State) : Host.Outcome State Fault Refusal := s.whileIdle s.admitTeardown

end Sys2Proof.Machine
end

