-- ==== Sys2Proof/Machine/Sequencer.lean ====
section
/-!
DEFINITION. The micro-operations of the CS/CLK/DIN sequencer (41_sequencer.md R134 to R146).
-/

namespace Sys2Proof.Machine

/-- `CSL` (R136). -/
def execCsl (s : State) : Host.Outcome State Fault Refusal := s.whileRunning (s.pinWrite s.pinCs .low)

/-- `CSH` (R137). -/
def execCsh (s : State) : Host.Outcome State Fault Refusal := s.whileRunning (s.pinWrite s.pinCs .high)

/-- `CKL` (R138). -/
def execCkl (s : State) : Host.Outcome State Fault Refusal := s.whileRunning (s.pinWrite s.pinClk .low)

/-- `CKH` (R139). -/
def execCkh (s : State) : Host.Outcome State Fault Refusal := s.whileRunning (s.pinWrite s.pinClk .high)

/-- `WAIT k` (R140). -/
def execWait (k : DelayKind) (s : State) : Host.Outcome State Fault Refusal :=
  s.whileRunning (s.delay k).advance

/-- `CFG r, d, l` (R134). A CFG of an input with level bit 1 is no micro-operation (R94). -/
def execCfg (r : Role) (d : Dir) (l : Level) (s : State) : Host.Outcome State Fault Refusal :=
  if d = .inp ∧ l = .high then .refused .noMicroOperation
  else s.whileRunning (s.call (.cfg (s.pin r) (setupOf d l)) (.pinConfig r) State.advance)

/-- `REL r` (R135). -/
def execRel (r : Role) (s : State) : Host.Outcome State Fault Refusal :=
  s.whileRunning (s.call (.rel (s.pin r)) .pinIO State.advance)

/-- `RDY` (R145). -/
def execRdy (s : State) : Host.Outcome State Fault Refusal :=
  s.whileRunning ({ s with lifecycle := .ready }.respond .ok)

/-- `RLS` (R146). -/
def execRls (s : State) : Host.Outcome State Fault Refusal :=
  s.whileRunning ({ s with lifecycle := .released }.respond .ok)

end Sys2Proof.Machine
end

