-- ==== Sys2Proof/Machine/Dispatch.lean ====
section
/-!
DEFINITION. The meaning of every instruction: one arm per constructor of Instr.
-/

namespace Sys2Proof.Machine

def exec (i : Instr) (s : State) : Host.Outcome State Fault Refusal :=
  match i with
  | .initRaw cs clk din => Sys2Proof.Machine.execInitRaw cs clk din s
  | .initC cs clk din => Sys2Proof.Machine.execInitC cs clk din s
  | .initF cs clk din => Sys2Proof.Machine.execInitF cs clk din s
  | .read => Sys2Proof.Machine.execRead s
  | .teardown => Sys2Proof.Machine.execTeardown s
  | .csl => Sys2Proof.Machine.execCsl s
  | .csh => Sys2Proof.Machine.execCsh s
  | .ckl => Sys2Proof.Machine.execCkl s
  | .ckh => Sys2Proof.Machine.execCkh s
  | .smpd k => Sys2Proof.Machine.execSmpd k s
  | .smpf => Sys2Proof.Machine.execSmpf s
  | .wait k => Sys2Proof.Machine.execWait k s
  | .clr => Sys2Proof.Machine.execClr s
  | .conv => Sys2Proof.Machine.execConv s
  | .cfg r d l => Sys2Proof.Machine.execCfg r d l s
  | .rel r => Sys2Proof.Machine.execRel r s
  | .rdy => Sys2Proof.Machine.execRdy s
  | .rls => Sys2Proof.Machine.execRls s

end Sys2Proof.Machine
end

