-- ==== Sys2Proof/Machine/Rom.lean ====
section
/-!
DEFINITION. The sequencer ROM (41_sequencer.md R150 to R152) with the pseudo-instructions of 30_encoding.md R100, the
fetch of the next instruction (20_memory.md R72; 40_host_commands.md R110), and the placing of an opcode-table word where
the machine fetches next.
-/

namespace Sys2Proof.Machine

/-- `InitP` (R150). -/
def romInit : List Byte := [0x83#8, 0x86#8, 0x88#8, 0xA0#8]

/-- `ReadP[0]` to `ReadP[7]`: clear, wake pulse, chip-select low, discarded bit (R151). -/
def romReadOpen : List Byte := [0x60#8, 0x10#8, 0x50#8, 0x11#8, 0x51#8, 0x10#8, 0x21#8, 0x20#8]

/-- `ReadP[8]` to `ReadP[43]`: the twelve data samples (R151). -/
def romReadData : List Byte :=
  [0x21#8, 0x3B#8, 0x20#8, 0x21#8, 0x3A#8, 0x20#8, 0x21#8, 0x39#8, 0x20#8, 0x21#8, 0x38#8, 0x20#8]
  ++ [0x21#8, 0x37#8, 0x20#8, 0x21#8, 0x36#8, 0x20#8, 0x21#8, 0x35#8, 0x20#8, 0x21#8, 0x34#8, 0x20#8]
  ++ [0x21#8, 0x33#8, 0x20#8, 0x21#8, 0x32#8, 0x20#8, 0x21#8, 0x31#8, 0x20#8, 0x21#8, 0x30#8, 0x20#8]

/-- `ReadP[44]` to `ReadP[54]`: fault sample, two trailing pulses, chip-select high, conversion (R151). -/
def romReadClose : List Byte :=
  [0x21#8, 0x40#8, 0x20#8, 0x21#8, 0x52#8, 0x20#8, 0x21#8, 0x52#8, 0x20#8, 0x11#8, 0x70#8]

/-- `TdP` (R152). -/
def romTd : List Byte := [0x90#8, 0x91#8, 0x92#8, 0xB0#8]

/-- `ROM[P]`; `Idle` has no entries (R24). -/
def rom : Prog → List Byte
  | .idle => []
  | .initP => romInit
  | .readP => romReadOpen ++ romReadData ++ romReadClose
  | .tdP => romTd

/-- `ROM[P][n]` (R130). -/
def romWord (u : Upc) : Option Byte := (rom u.prog)[u.idx.toNat]?

/-! ### Pseudo-instructions (R100) -/

/-- `WAKE`. -/
def pseudoWake : List Instr := [.csl, .wait .tCslow, .csh, .wait .tConv]

/-- `PULSE`. -/
def pseudoPulse : List Instr := [.ckh, .ckl]

/-- `SAMPLE i`. -/
def pseudoSample (i : Fin 12) : List Instr := [.ckh, .smpd i, .ckl]

/-- `SAMPLEF`. -/
def pseudoSampleF : List Instr := [.ckh, .smpf, .ckl]

/-- `PULSE.H`. -/
def pseudoPulseH : List Instr := [.ckh, .wait .tPulse, .ckl]

/-! ### Fetch -/

/-- What the machine finds to do next. -/
inductive Fetched where
  /-- Idle, and the host presents nothing (R231). -/
  | waiting
  /-- Idle, and the host presents a command: the instruction, and the state with the command taken from the port. -/
  | command (i : Instr) (s : State)
  /-- Idle, and the host presents a reserved word (R92). -/
  | reserved (s : State)
  /-- A micro-operation of the ROM (R130). -/
  | micro (i : Instr)
  /-- `UPC` names no ROM entry. -/
  | noEntry
  /-- A ROM word that is no micro-operation (R94). -/
  | badWord (b : Byte)

/-- What the command port of the idle controller gives; the command is taken from the port (R110). -/
def fetchCommand (s : State) : Fetched :=
  match s.hostProgram with
  | [] => .waiting
  | c :: rest =>
    match decodeH c with
    | .ok i => .command i { s with hostProgram := rest }
    | .error _ => .reserved { s with hostProgram := rest }

/-- What the ROM gives at a sequencer position (R130). -/
def fetchMicro (u : Upc) : Fetched :=
  match romWord u with
  | none => .noEntry
  | some b =>
    match decodeU b with
    | .ok i => .micro i
    | .error _ => .badWord b

/-- The next instruction: from the command port while idle (R110), from the ROM while a micro-program runs (R130). -/
def fetch (s : State) : Fetched :=
  if s.upc.prog = .idle then fetchCommand s else fetchMicro s.upc

/-! ### Placing a table word -/

/-- The first index at which a word stands in a list. -/
def firstIndex (w : Byte) : List Byte → Option Nat
  | [] => none
  | b :: rest => if b = w then some 0 else (firstIndex w rest).map (· + 1)

/-- The first ROM entry that holds a word: `ReadP` is searched first, then `InitP`, then `TdP`. -/
def romFind (w : Byte) : Option Upc :=
  match firstIndex w (rom .readP), firstIndex w (rom .initP), firstIndex w (rom .tdP) with
  | some n, _, _ => some ⟨.readP, BitVec.ofNat 6 n⟩
  | none, some n, _ => some ⟨.initP, BitVec.ofNat 6 n⟩
  | none, none, some n => some ⟨.tdP, BitVec.ofNat 6 n⟩
  | none, none, none => none

/-- Put a word at the command port of the idle controller, before whatever the host still has to present. -/
def State.placeCommand (s : State) (w : Byte) : State :=
  { s with upc := ⟨.idle, 0#6⟩, hostProgram := bareCmd w :: s.hostProgram }

/-- Make a word the next one fetched (log 12): a host command goes to the command port; a word that is only a
micro-operation sets `UPC` to the ROM entry that holds it; a word neither of these goes to the command port. -/
def State.placeWord (s : State) (w : Byte) : State :=
  match decodeH (bareCmd w), romFind w with
  | .ok _, _ => s.placeCommand w
  | .error _, some u => { s with upc := u }
  | .error _, none => s.placeCommand w

end Sys2Proof.Machine
end

