-- ==== Sys2Proof/Machine/Step.lean ====
section
/-!
DEFINITION. One step of the machine: the host step while idle (40_host_commands.md R110), the sequencer step while a
micro-program runs (41_sequencer.md R130).
-/

namespace Sys2Proof.Machine

/-- One step. While idle with no command presented, nothing changes (R231). -/
def step (s : State) : Host.Outcome State Fault Refusal :=
  match fetch s with
  | .waiting => .next s
  | .command i t => exec i t
  | .reserved t => .next t.admitReserved
  | .micro i => exec i s
  | .noEntry => .refused .noRomEntry
  | .badWord b => .refused (.invalidMicroWord b)

/-- `s` with the word `w` of spec/opcode_table.json where `step` fetches next; every row has 8 bits (log 12). -/
def State.withFetchWord (s : State) (_nbits w : Nat) : State := s.placeWord (BitVec.ofNat 8 w)

end Sys2Proof.Machine
end

