-- ==== Sys2Proof/Machine/Command.lean ====
section
/-!
DEFINITION. The command level (00_scope.md R7; 41_sequencer.md R131): a command is the composition of the steps from its
admission until the sequencer is idle again; and the start of a further run (70_reset_and_hazards.md R230).
-/

namespace Sys2Proof.Machine

/-- At most `k` steps, stopping as soon as the sequencer is idle. -/
def runToIdle : Nat → State → Host.Outcome State Fault Refusal
  | 0, s => .next s
  | k + 1, s =>
    if s.upc.prog = .idle then .next s
    else
      match step s with
      | .next t => runToIdle k t
      | .fault r => .fault r
      | .refused r => .refused r

/-- The host presents `c` to an idle controller, and the controller runs to the response: admission, then at most 55
sequencer steps (R131). What else the host has to present waits. While a micro-program runs the host has no step: the
command is refused (R11, R70; log 15). -/
def runCommand (c : HostCmd) (s : State) : Host.Outcome State Fault Refusal :=
  if s.upc.prog = .idle then
    match step { s with hostProgram := c :: s.hostProgram } with
    | .next t => runToIdle 55 t
    | .fault r => .fault r
    | .refused r => .refused r
  else .refused .commandWhileBusy

/-- The start of another run after a run that ended in `s`: the controller and its trace as after reset, the platform pin
table carried over (R230, R232). The environment is the same one, so what it will answer, and the counters that number
its answers, are carried over too (log 24, DESIGN CHOICE). It is no step of a run: reset occurs nowhere inside one (R230).
In the middle of a command there is no reset: it is refused (R11, R233; log 19). -/
def State.restart (s : State) : Host.Outcome State Fault Refusal :=
  if s.upc.prog = .idle then
    .next { State.reset with
      pins := s.pins
      callScript := s.callScript
      platform := s.platform
      dinScript := s.dinScript
      sensor := s.sensor
      hostProgram := s.hostProgram
      draws := s.draws
      readNo := s.readNo }
  else .refused .resetWhileBusy

end Sys2Proof.Machine
end

