-- ==== Sys2Proof/Safety.lean ====
section
/-!
DEFINITION. The terms in which claims speak of the machine: the invariants the spec states, the events of one INIT, READ
and TEARDOWN written from the spec's listings, and the shape of a successful and of a failing platform call.
-/

namespace Sys2Proof.Machine

/-! ### Invariants -/

/-- `UPC` names a ROM entry, or is (Idle, 0) (10_state.md R24). -/
def UpcLegal (s : State) : Prop :=
  (s.upc.prog = .idle → s.upc.idx = 0#6) ∧ (s.upc.prog ≠ .idle → s.upc.idx.toNat < (rom s.upc.prog).length)

/-- Each micro-program runs only in the lifecycle state that admits it (R110, R120), and the pins are distinct from the
admission of INIT on (R35, R112). -/
def LifecycleLegal (s : State) : Prop :=
  (s.upc.prog = .initP → s.lifecycle = .uninitialized) ∧
  (s.upc.prog = .readP ∨ s.upc.prog = .tdP → s.lifecycle = .ready) ∧
  (s.lifecycle = .ready ∨ s.upc.prog = .initP → pinsDistinct s.pinCs s.pinClk s.pinDin)

/-- The directions of the three pins: set one by one by `InitP` (R150), and held while Ready until TEARDOWN releases them
(R35). -/
def PinsConfigured (s : State) : Prop :=
  (s.upc.prog = .initP → 1 ≤ s.upc.idx.toNat → s.pins.get s.pinCs = .out .high) ∧
  (s.upc.prog = .initP → 2 ≤ s.upc.idx.toNat → s.pins.get s.pinClk = .out .low) ∧
  (s.upc.prog = .initP → 3 ≤ s.upc.idx.toNat → s.pins.get s.pinDin = .inp) ∧
  (s.lifecycle = .ready → s.upc.prog ≠ .tdP →
    (∃ l, s.pins.get s.pinCs = .out l) ∧ (∃ l, s.pins.get s.pinClk = .out l) ∧ s.pins.get s.pinDin = .inp)

/-- How many of the twelve data bits `ReadP` has sampled when it stands before entry `n`: `SMPD (11 - j)` is entry
`9 + 3j` (R151). -/
def samplesDone (n : Nat) : Nat := (n - 7) / 3

/-- The bits of RAW that `ReadP` has not sampled yet are 0, and so is FAULT before its sample (R160, R164). -/
def UnsampledZero (s : State) : Prop :=
  s.upc.prog = .readP → 1 ≤ s.upc.idx.toNat →
    (∀ j < 12 - samplesDone s.upc.idx.toNat, s.raw.getLsbD j = false) ∧
    (s.upc.idx.toNat ≤ 45 → s.fault = 0#1)

/-- The level of chip-select before entry `n` of `ReadP`, where the writes before it fix it (R151, R207). -/
def csLevelAt (n : Nat) : Option Level :=
  if n ≤ 1 then none
  else if n ≤ 3 then some .low
  else if n ≤ 5 then some .high
  else if n ≤ 53 then some .low
  else some .high

/-- The level of clock before entry `n` of `ReadP`, where the writes before it fix it: high from each `CKH` to the `CKL`
of its pulse. The sixteen pulses are the entries 6, 7 (no sample), then 8 to 52 in threes (R151, R207). -/
def clkLevelAt (n : Nat) : Option Level :=
  if n ≤ 6 then none
  else if n = 7 then some .high
  else if n ≤ 53 ∧ n % 3 ≠ 2 then some .high
  else some .low

/-- The levels of the two output pins during a READ (R153, R207). -/
def ReadLevels (s : State) : Prop :=
  s.upc.prog = .readP →
    (∀ l, csLevelAt s.upc.idx.toNat = some l → s.pins.get s.pinCs = .out l) ∧
    (∀ l, clkLevelAt s.upc.idx.toNat = some l → s.pins.get s.pinClk = .out l)

/-- `RESP` holds a word of format R, and `RESP_INFO` is what goes with it (R29, R95, R200). -/
def RespLegal (s : State) : Prop :=
  (s.resp = 0x00000#18 ∧ s.respInfo = .none) ∨
  (∃ v : BitVec 16, s.resp = 0x10000#18 + v.zeroExtend 18 ∧ s.respInfo = .none) ∨
  (s.resp = 0x20000#18 ∧ s.respInfo = .none) ∨
  (s.resp = 0x30001#18 ∧ (s.respInfo = .distinct ∨ ∃ r e, s.respInfo = .config r e)) ∨
  (s.resp = 0x30002#18 ∧ ∃ e, s.respInfo = .io e) ∨
  (s.resp = 0x30003#18 ∧ s.respInfo = .none) ∨
  (s.resp = 0x30004#18 ∧ s.respInfo = .none)

/-- The invariant of the machine: all of the above, and the pin table in canonical form. -/
structure Inv (s : State) : Prop where
  pins : s.pins.wf = true
  upc : UpcLegal s
  lifecycle : LifecycleLegal s
  configured : PinsConfigured s
  unsampled : UnsampledZero s
  levels : ReadLevels s
  resp : RespLegal s

/-! ### The events of a command, from the spec's listings -/

/-- One clock pulse in which nothing is read or waited for (R100 `PULSE`). -/
def pulseEvents (clk : PinId) : List Event := [.write clk .high, .write clk .low]

/-- One clock pulse in which data-in is read while clock is high (R100 `SAMPLE`, `SAMPLEF`). -/
def sampleEvents (clk din : PinId) (b : Level) : List Event :=
  [.write clk .high, .read din b, .write clk .low]

/-- One clock pulse held high (R100 `PULSE.H`). -/
def heldPulseEvents (clk : PinId) : List Event := [.write clk .high, .wait .tPulse, .write clk .low]

/-- The 53 events of a READ that does not fail, `b i` being the level of data bit `i` and `f` that of the fault bit
(40_host_commands.md R114; 41_sequencer.md R151). -/
def readEvents (cs clk din : PinId) (b : Fin 12 → Level) (f : Level) : List Event :=
  [.write cs .low, .wait .tCslow, .write cs .high, .wait .tConv, .write cs .low]
  ++ pulseEvents clk
  ++ ([11, 10, 9, 8, 7, 6, 5, 4, 3, 2, 1, 0] : List (Fin 12)).flatMap (fun i => sampleEvents clk din (b i))
  ++ sampleEvents clk din f
  ++ heldPulseEvents clk ++ heldPulseEvents clk
  ++ [.write cs .high]

/-- The three events of an INIT that does not fail (R111, R150). -/
def initEvents (cs clk din : PinId) : List Event :=
  [.cfg cs (.out .high), .cfg clk (.out .low), .cfg din .inp]

/-- The three events of a TEARDOWN that does not fail (R117, R152). -/
def teardownEvents (cs clk din : PinId) : List Event := [.rel cs, .rel clk, .rel din]

/-- The response word of a READ whose samples gave `raw` and the fault bit `f` (R115, R180). -/
def readResponse (u : TempUnit) (raw : BitVec 12) (f : Level) : BitVec 18 :=
  match f with
  | .high => 0x20000#18
  | .low => 0x10000#18 + (scaledValue u raw).zeroExtend 18

/-! ### The shape of a platform call, as claims state it -/

/-- The state after a platform call that succeeded with event `ev` and left the pin table `pins`, the sequencer having
advanced: nothing else has changed. -/
def afterCall (s : State) (ev : Event) (pins : PinTable) : State :=
  { s with
    pins := pins
    trace := s.trace ++ [ev]
    upc := ⟨s.upc.prog, s.upc.idx + 1⟩
    callScript := s.callScript.tail
    draws := s.draws + 1 }

/-- The state after a platform call that failed with error `e` and raised the exception with response word `w` and side
value `info` (R132, R206): nothing else has changed. -/
def afterFailure (s : State) (c : PlatCall) (e : PlatErr) (w : BitVec 18) (info : RespInfo) : State :=
  { s with
    trace := s.trace ++ [.fail c e]
    resp := w
    respInfo := info
    respValid := true
    lifecycle := if s.upc.prog = .tdP then .released else s.lifecycle
    upc := ⟨.idle, 0#6⟩
    callScript := s.callScript.tail
    draws := s.draws + 1 }

/-- `i` writes level `l` to pin `p` when the platform lets it, and advances; every other pin reads as before. -/
def WritesPin (i : Instr) (p : PinId) (l : Level) (s : State) : Prop :=
  s.platformAnswer (.write p l) = none →
    ∃ t, exec i s = .next t ∧ (∀ q, t.pins.get q = if q = p then .out l else s.pins.get q) ∧
      t = afterCall s (.write p l) t.pins

/-- `i` raises PinIOError with the platform's error when its call `c` fails (R132, R202). -/
def RaisesPinIO (i : Instr) (c : PlatCall) (s : State) : Prop :=
  ∀ e, s.platformAnswer c = some e → exec i s = .next (afterFailure s c e 0x30002#18 (.io e))

/-! ### A run of platform calls, as claims about whole commands state it -/

/-- The platform call an event records, if it records one that succeeded (R67). -/
def callOf : Event → Option PlatCall
  | .cfg p c => some (.cfg p c)
  | .write p l => some (.write p l)
  | .read p _ => some (.read p)
  | .rel p => some (.rel p)
  | .wait _ => none
  | .fail _ _ => none

/-- The scripted levels an event uses up. -/
def dinScriptPast (ev : Event) (ds : List Level) : List Level :=
  match ev with
  | .read _ _ => ds.tail
  | .cfg _ _ | .write _ _ | .rel _ | .wait _ | .fail _ _ => ds

/-- `s` with one event performed, as far as the environment goes: the trace, the pin table, and what the environment will
answer next (R54, R67, R68). -/
def State.performed (s : State) (ev : Event) : State :=
  match callOf ev with
  | some c => { s.answered ev with pins := c.effect s.pins, dinScript := dinScriptPast ev s.dinScript }
  | none => { s with trace := s.trace ++ [ev] }

/-- `s` with a list of events performed, in order. -/
def State.performedAll (s : State) (evs : List Event) : State := evs.foldl State.performed s

/-- Which of the events the platform fails when they are tried one after another from `s`: how many are performed before
it, its call, and the error the platform answers; `none` if the platform lets all of them succeed (R55). -/
def firstFailure (s : State) : List Event → Option (Nat × PlatCall × PlatErr)
  | [] => none
  | ev :: rest =>
    match (callOf ev).bind fun c => (s.platformAnswer c).map fun e => (c, e) with
    | some (c, e) => some (0, c, e)
    | none => (firstFailure (s.performed ev) rest).map fun x => (x.1 + 1, x.2)

/-- Each read among the events yields the level data-in has when the events before it have been performed (R63). -/
def Sensed (s : State) : List Event → Prop
  | [] => True
  | ev :: rest => (∀ p l, ev = .read p l → l = s.dinAnswer) ∧ Sensed (s.performed ev) rest

/-- The pins after the first `n` of INIT's three configurations: roles before `n` configured, all else as before (R113,
R207). -/
def initPins (s : State) (cs clk din : PinId) (n : Nat) (q : PinId) : PinState :=
  if q = cs ∧ 1 ≤ n then .out .high
  else if q = clk ∧ 2 ≤ n then .out .low
  else if q = din ∧ 3 ≤ n then .inp
  else s.pins.get q

/-- The pins after the first `n` of TEARDOWN's three releases: roles before `n` released, all else as before (R117,
R207). -/
def teardownPins (s : State) (n : Nat) (q : PinId) : PinState :=
  if (q = s.pinCs ∧ 1 ≤ n) ∨ (q = s.pinClk ∧ 2 ≤ n) ∨ (q = s.pinDin ∧ 3 ≤ n) then .free else s.pins.get q

/-- RAW after the first `n` events of a READ: data bit `j` is event `41 - 3j`, counted from 0 (R151, R161). -/
def rawBitAfter (b : Fin 12 → Level) (n : Nat) (j : Fin 12) : Bool :=
  decide (41 - 3 * j.val < n) && decide (b j = .high)

/-- FAULT after the first `n` events of a READ: the fault bit is event 44, counted from 0 (R151, R162). -/
def faultAfterEvents (f : Level) (n : Nat) : BitVec 1 := if 44 < n then f.bit else 0#1

/-- Chip-select while event `n` of a READ is tried, event 0 being the first `CSL`, where it was high before (R207). -/
def csLevelAtEvent (n : Nat) : Level := if n = 0 ∨ n = 4 then .high else .low

/-- Clock while a call of a READ is tried, where it was low before: high exactly for a read of data-in and for a clock
write to low (R207). -/
def clkLevelAtCall (clk : PinId) (c : PlatCall) : Level :=
  match c with
  | .read _ => .high
  | .write p .low => if p = clk then .high else .low
  | .write _ .high | .cfg _ _ | .rel _ => .low

end Sys2Proof.Machine
end

