-- ==== Sys2Proof/Certificates/Slice0/Obligations.lean ====
section
/-!
DEFINITION. The statements about the controller, from the numbered rules of spec/.
-/

open Sys2Proof Sys2Proof.Machine

/-! ### Encodings -/

/-- Decoding the encoding of a well-formed instruction, in the format that carries it, gives the instruction back, with
every operand (30_encoding.md R86, R87, R93). -/
def Obligations.EncodeDecodeRoundTrip : Prop :=
  ∀ i : Instr, WellFormed i → decode (encode i) = .ok i

/-- Every format-U word that is a micro-operation stands for one well-formed instruction whose encoding is that word: no
bit of the word is dropped (R93, R94). -/
def Obligations.MicroWordIsItsOwnEncoding : Prop :=
  ∀ (b : Byte) (i : Instr), decodeU b = .ok i → WellFormed i ∧ encode i = .micro b

/-- The legal command words are the five of R86, each with its command and operands; as match and mask, INIT is
`CMD & 0xCF = 0x00` with `CMD[5:4] != 3`. -/
def Obligations.CommandWordsAreTheFive : Prop :=
  (∀ (c : HostCmd) (i : Instr), decodeH c = .ok i ↔
    (c.word = 0x00#8 ∧ i = .initRaw c.cs c.clk c.din) ∨ (c.word = 0x10#8 ∧ i = .initC c.cs c.clk c.din) ∨
    (c.word = 0x20#8 ∧ i = .initF c.cs c.clk c.din) ∨ (c.word = 0x40#8 ∧ i = .read) ∨
    (c.word = 0x80#8 ∧ i = .teardown)) ∧
  (∀ c : HostCmd,
    (decodeH c = .ok (.initRaw c.cs c.clk c.din) ∨ decodeH c = .ok (.initC c.cs c.clk c.din) ∨
      decodeH c = .ok (.initF c.cs c.clk c.din)) ↔
    (c.word &&& 0xCF#8 = 0x00#8 ∧ c.word.extractLsb' 4 2 ≠ 3#2)) ∧
  (∀ c : HostCmd, decodeH c = .ok .read ↔ c.word = 0x40#8) ∧
  (∀ c : HostCmd, decodeH c = .ok .teardown ↔ c.word = 0x80#8)

/-- Words written out from R86 and R93 decode to what they stand for. -/
def Obligations.WordsOfTheTableDecode : Prop :=
  decodeH ⟨0b00010000#8, ⟨8⟩, ⟨11⟩, ⟨9⟩⟩ = .ok (.initC ⟨8⟩ ⟨11⟩ ⟨9⟩) ∧
  decodeH (bareCmd 0b01000000#8) = .ok .read ∧
  decodeU 0b00010001#8 = .ok .csh ∧
  decodeU 0b00111011#8 = .ok (.smpd 11) ∧
  decodeU 0b01010010#8 = .ok (.wait .tPulse) ∧
  decodeU 0b01110000#8 = .ok .conv ∧
  decodeU 0b10000110#8 = .ok (.cfg .clk .out .low) ∧
  decodeU 0b10010010#8 = .ok (.rel .din)

/-- The ROM: 4, 55 and 4 entries; entries `8 + 3j`, `9 + 3j`, `10 + 3j` of `ReadP` are `CKH`, `SMPD (11 - j)`, `CKL`
(R150, R151, R152). -/
def Obligations.RomListing : Prop :=
  (rom .initP).length = 4 ∧ (rom .readP).length = 55 ∧ (rom .tdP).length = 4 ∧
  ∀ j : Fin 12,
    fetchMicro ⟨.readP, BitVec.ofNat 6 (8 + 3 * j.val)⟩ = .micro .ckh ∧
    fetchMicro ⟨.readP, BitVec.ofNat 6 (9 + 3 * j.val)⟩ = .micro (.smpd ⟨11 - j.val, by omega⟩) ∧
    fetchMicro ⟨.readP, BitVec.ofNat 6 (10 + 3 * j.val)⟩ = .micro .ckl

/-! ### The step -/

/-- A step runs the decoded instruction: the command the host presents while the controller is idle, taken from the port
(R110); the ROM word at `UPC` while a micro-program runs (R130). While idle with nothing presented nothing changes
(R231). -/
def Obligations.StepRunsTheDecodedInstruction : Prop :=
  (∀ s : State, s.upc.prog = .idle → s.hostProgram = [] → step s = .next s) ∧
  (∀ (s : State) (c : HostCmd) (rest : List HostCmd) (i : Instr), s.upc.prog = .idle → s.hostProgram = c :: rest →
    decodeH c = .ok i → step s = exec i { s with hostProgram := rest }) ∧
  (∀ (s : State) (b : Byte) (i : Instr), s.busy → romWord s.upc = some b → decodeU b = .ok i → step s = exec i s)

/-- A word of the opcode table placed for fetching is the next one run: a command word at the idle command port with
every operand at label 0, a word that is only a micro-operation at the ROM entry found for it. The choice of format for
a word of both is the model's (log 12). -/
def Obligations.PlacedWordIsRunNext : Prop :=
  (∀ (s : State) (w : Byte) (i : Instr), decodeH (bareCmd w) = .ok i →
    step (s.withFetchWord 8 w.toNat) = exec i { s with upc := ⟨.idle, 0#6⟩ }) ∧
  (∀ (s : State) (w : Byte) (u : Upc) (i : Instr), (∀ j, decodeH (bareCmd w) ≠ .ok j) → romFind w = some u →
    decodeU w = .ok i → step (s.withFetchWord 8 w.toNat) = exec i { s with upc := u })

/-! ### Host commands -/

/-- INIT, admitted from Uninitialized with distinct pins, in each of its three units: `RESP_VALID` is cleared, `UNIT` and
the pin registers are written, `InitP` starts, and nothing else changes (R110). -/
def Obligations.InitIsAdmitted : Prop :=
  ∀ (s : State) (cs clk din : PinId) (i : Instr) (u : TempUnit),
    (i, u) ∈ [(Instr.initRaw cs clk din, TempUnit.raw), (.initC cs clk din, .celsius),
      (.initF cs clk din, .fahrenheit)] →
    s.upc.prog = .idle → s.lifecycle = .uninitialized → cs ≠ clk → cs ≠ din → clk ≠ din →
    exec i s = .next { s with
      respValid := false, unit := u, pinCs := cs, pinClk := clk, pinDin := din, upc := ⟨.initP, 0#6⟩ }

/-- INIT with two equal pins, from Uninitialized: PinConfigurationError with info `distinct`, before any platform call.
The attempted unit and pins stay in their registers (R110, R112). -/
def Obligations.InitNeedsDistinctPins : Prop :=
  ∀ (s : State) (cs clk din : PinId) (i : Instr) (u : TempUnit),
    (i, u) ∈ [(Instr.initRaw cs clk din, TempUnit.raw), (.initC cs clk din, .celsius),
      (.initF cs clk din, .fahrenheit)] →
    s.upc.prog = .idle → s.lifecycle = .uninitialized → (cs = clk ∨ cs = din ∨ clk = din) →
    exec i s = .next { s with
      unit := u, pinCs := cs, pinClk := clk, pinDin := din
      resp := 0x30001#18, respInfo := .distinct, respValid := true, upc := ⟨.idle, 0#6⟩ }

/-- READ, admitted from Ready: `RESP_VALID` is cleared, `ReadP` starts, the READ is counted for the frame source (the
model's counter, log 21), and nothing else changes (R110). -/
def Obligations.ReadIsAdmitted : Prop :=
  ∀ s : State, s.upc.prog = .idle → s.lifecycle = .ready →
    exec .read s = .next { s with respValid := false, upc := ⟨.readP, 0#6⟩, readNo := s.readNo + 1 }

/-- TEARDOWN, admitted from Ready: `RESP_VALID` is cleared, `TdP` starts, and nothing else changes (R110). -/
def Obligations.TeardownIsAdmitted : Prop :=
  ∀ s : State, s.upc.prog = .idle → s.lifecycle = .ready →
    exec .teardown s = .next { s with respValid := false, upc := ⟨.tdP, 0#6⟩ }

/-- TEARDOWN in Released responds `Ok` at admission, makes no platform call, and changes nothing but `RESP`, its side
value and `RESP_VALID` (R118). That the side value becomes `none` is the model's reading of R95 (log 13). -/
def Obligations.SecondTeardownIsANoOp : Prop :=
  ∀ s : State, s.upc.prog = .idle → s.lifecycle = .released →
    exec .teardown s = .next { s with
      resp := 0x00000#18, respInfo := .none, respValid := true, upc := ⟨.idle, 0#6⟩ }

/-- A command with no edge in the lifecycle: InvalidState, with no pin activity and no change but the response (R203). -/
def Obligations.WrongLifecycleIsInvalidState : Prop :=
  ∀ (s : State) (cs clk din : PinId), s.upc.prog = .idle →
    (∀ i ∈ [Instr.initRaw cs clk din, .initC cs clk din, .initF cs clk din],
      s.lifecycle = .ready ∨ s.lifecycle = .released →
      exec i s = .next { s with
        resp := 0x30003#18, respInfo := .none, respValid := true, upc := ⟨.idle, 0#6⟩ }) ∧
    (s.lifecycle = .uninitialized ∨ s.lifecycle = .released →
      exec .read s = .next { s with
        resp := 0x30003#18, respInfo := .none, respValid := true, upc := ⟨.idle, 0#6⟩ }) ∧
    (s.lifecycle = .uninitialized →
      exec .teardown s = .next { s with
        resp := 0x30003#18, respInfo := .none, respValid := true, upc := ⟨.idle, 0#6⟩ })

/-- A command word that is not one of the five legal ones, in every lifecycle state alike and before any other test:
IllegalCommand, and nothing else changes but that the word is taken from the port. There are 251 such words of the 256
(R92, R204). -/
def Obligations.ReservedWordIsIllegalCommand : Prop :=
  (∀ (s : State) (c : HostCmd) (rest : List HostCmd), s.upc.prog = .idle → s.hostProgram = c :: rest →
    c.word ∉ [0x00#8, 0x10#8, 0x20#8, 0x40#8, 0x80#8] →
    step s = .next { s with
      hostProgram := rest
      resp := 0x30004#18, respInfo := .none, respValid := true, upc := ⟨.idle, 0#6⟩ }) ∧
  ((List.range 256).filter fun n =>
    decide (BitVec.ofNat 8 n ∉ [0x00#8, 0x10#8, 0x20#8, 0x40#8, 0x80#8])).length = 251

/-- The host and the sequencer do not run concurrently. A host command executed while a micro-program runs has no step, and
no run as a whole command either: the spec's assumption about the host (R11, R70, U7). A micro-operation executed while none runs has no step either: no rule speaks
of it, R130 gives the sequencer a step only while a micro-program runs. These refusals are the model's choice (log 15,
PRESUMED; those of a command unsafe). -/
def Obligations.HostAndSequencerExclude : Prop :=
  (∀ (s : State) (i : Instr) (c : HostCmd), s.busy → encode i = .command c →
    exec i s = .refused .commandWhileBusy) ∧
  (∀ (s : State) (c : HostCmd), s.busy → runCommand c s = .refused .commandWhileBusy) ∧
  (∀ (s : State) (i : Instr) (b : Byte), s.upc.prog = .idle → WellFormed i → encode i = .micro b →
    exec i s = .refused .sequencerIdle)

/-- A CFG that configures an input with a high level is no micro-operation: no step (R94; log 16). -/
def Obligations.IllFormedCfgIsRefused : Prop :=
  ∀ (s : State) (r : Role), exec (.cfg r .inp .high) s = .refused .noMicroOperation

/-! ### Micro-operations that complete -/

/-- `CSL`, `CSH`, `CKL`, `CKH`: when the platform lets the write succeed, the pin is driven at the level, the write is
recorded, `UPC` advances, and nothing else changes (R54, R136 to R139). -/
def Obligations.PinWritesComplete : Prop :=
  ∀ s : State, s.busy →
    WritesPin .csl s.pinCs .low s ∧ WritesPin .csh s.pinCs .high s ∧
    WritesPin .ckl s.pinClk .low s ∧ WritesPin .ckh s.pinClk .high s

/-- `CFG r, d, l`, when the platform lets it succeed: an output pin is driven at the level, an input pin is In; the
configuration is recorded, `UPC` advances, nothing else changes (R54, R134). -/
def Obligations.CfgCompletes : Prop :=
  ∀ (s : State) (r : Role), s.busy →
    (∀ l, s.platformAnswer (.cfg (s.pin r) (.out l)) = none →
      ∃ t, exec (.cfg r .out l) s = .next t ∧
        (∀ q, t.pins.get q = if q = s.pin r then .out l else s.pins.get q) ∧
        t = afterCall s (.cfg (s.pin r) (.out l)) t.pins) ∧
    (s.platformAnswer (.cfg (s.pin r) .inp) = none →
      ∃ t, exec (.cfg r .inp .low) s = .next t ∧
        (∀ q, t.pins.get q = if q = s.pin r then .inp else s.pins.get q) ∧
        t = afterCall s (.cfg (s.pin r) .inp) t.pins)

/-- `REL r`, when the platform lets it succeed: the pin becomes Free; the release is recorded, `UPC` advances, nothing
else changes (R54, R135). -/
def Obligations.RelCompletes : Prop :=
  ∀ (s : State) (r : Role), s.busy → s.platformAnswer (.rel (s.pin r)) = none →
    ∃ t, exec (.rel r) s = .next t ∧
      (∀ q, t.pins.get q = if q = s.pin r then .free else s.pins.get q) ∧
      t = afterCall s (.rel (s.pin r)) t.pins

/-- `SMPD i`, when the read succeeds with the level `s.dinAnswer`: bit `i` of RAW becomes that level and no other bit
changes; the read is recorded, `UPC` advances, the pin table and everything else are unchanged (R54, R161). Where `RAW[i]`
is already 1, which no READ reaches and R164 leaves undefined, that the bit is written is the model's reading (log 14,
DEDUCED). -/
def Obligations.SmpdCompletes : Prop :=
  ∀ (s : State) (i : Fin 12), s.busy → s.platformAnswer (.read s.pinDin) = none →
    ∃ t, exec (.smpd i) s = .next t ∧
      (∀ j : Fin 12, t.raw.getLsbD j.val =
        if j = i then decide (s.dinAnswer = .high) else s.raw.getLsbD j.val) ∧
      t = { afterCall s (.read s.pinDin s.dinAnswer) s.pins with raw := t.raw, dinScript := s.dinScript.tail }

/-- `SMPD i` where `RAW[i] = 0`, as it is in every READ: `RAW <- RAW + b * 2^i`, with no carry out of bit `i` and no
overflow (R161, R164). -/
def Obligations.SmpdAddsItsWeight : Prop :=
  ∀ (s : State) (i : Fin 12), s.busy → s.platformAnswer (.read s.pinDin) = none → s.raw.getLsbD i.val = false →
    ∃ t, exec (.smpd i) s = .next t ∧ t.raw.toNat = s.raw.toNat + s.dinAnswer.toNat * 2 ^ i.val

/-- `SMPF`, when the read succeeds: FAULT becomes the level read; RAW is not looked at and nothing else changes but the
trace and `UPC` (R54, R162). -/
def Obligations.SmpfCompletes : Prop :=
  ∀ s : State, s.busy → s.platformAnswer (.read s.pinDin) = none →
    exec .smpf s = .next { afterCall s (.read s.pinDin s.dinAnswer) s.pins with
      fault := if s.dinAnswer = .high then 1#1 else 0#1
      dinScript := s.dinScript.tail }

/-- `WAIT k`: appends `Wait(k)` and advances; nothing else changes; it cannot fail (R68, R140). -/
def Obligations.WaitCompletes : Prop :=
  ∀ (s : State) (k : DelayKind), s.busy →
    exec (.wait k) s = .next { s with
      trace := s.trace ++ [.wait k], upc := ⟨s.upc.prog, s.upc.idx + 1⟩ }

/-- `CLR`: RAW and FAULT become 0, `UPC` advances; nothing else changes and no event is appended (R67, R160). -/
def Obligations.ClrCompletes : Prop :=
  ∀ s : State, s.busy →
    exec .clr s = .next { s with raw := 0#12, fault := 0#1, upc := ⟨s.upc.prog, s.upc.idx + 1⟩ }

/-- `RDY` and `RLS`: the lifecycle becomes Ready or Released and the response is `Ok`; the sequencer is idle; nothing else
changes (R145, R146). That the side value becomes `none` is the model's reading of R95 (log 13). -/
def Obligations.RdyAndRlsComplete : Prop :=
  ∀ s : State, s.busy →
    exec .rdy s = .next { s with
      lifecycle := .ready, resp := 0x00000#18, respInfo := .none, respValid := true, upc := ⟨.idle, 0#6⟩ } ∧
    exec .rls s = .next { s with
      lifecycle := .released, resp := 0x00000#18, respInfo := .none, respValid := true, upc := ⟨.idle, 0#6⟩ }

/-- `CONV`: with FAULT = 1 the response is `Fault`, whatever RAW and UNIT hold; otherwise it is `Value` with the scaled
integer of the unit. RAW, FAULT, UNIT and LIFECYCLE are kept, no event is appended (R180, R181, R186). That the side
value becomes `none` is the model's reading of R95 (log 13). -/
def Obligations.ConvCompletes : Prop :=
  ∀ s : State, s.busy →
    ∃ t, exec .conv s = .next t ∧
      t = { s with resp := t.resp, respInfo := .none, respValid := true, upc := ⟨.idle, 0#6⟩ } ∧
      (s.fault = 1#1 → t.resp = 0x20000#18) ∧
      (s.fault = 0#1 → s.unit = .raw → t.resp.toNat = 0x10000 + s.raw.toNat) ∧
      (s.fault = 0#1 → s.unit = .celsius → t.resp.toNat = 0x10000 + s.raw.toNat) ∧
      (s.fault = 0#1 → s.unit = .fahrenheit → t.resp.toNat = 0x10000 + (9 * s.raw.toNat + 640))

/-! ### Platform failures -/

/-- A failing call of CSL, CSH, CKL, CKH, SMPD, SMPF or REL raises PinIOError with the platform's error unchanged: the
`Fail` event is appended, the response is written, the sequencer goes idle, a TEARDOWN ends the driver's life, and
nothing else changes: not RAW, not FAULT (R55, R132, R202, R206). That the pin table too is as before is the spec's own
reading of a failed call, which the model follows (log 20, PRESUMED, unsafe; U19). -/
def Obligations.FailedAccessRaisesPinIOError : Prop :=
  ∀ s : State, s.busy →
    RaisesPinIO .csl (.write s.pinCs .low) s ∧ RaisesPinIO .csh (.write s.pinCs .high) s ∧
    RaisesPinIO .ckl (.write s.pinClk .low) s ∧ RaisesPinIO .ckh (.write s.pinClk .high) s ∧
    (∀ i, RaisesPinIO (.smpd i) (.read s.pinDin) s) ∧ RaisesPinIO .smpf (.read s.pinDin) s ∧
    (∀ r, RaisesPinIO (.rel r) (.rel (s.pin r)) s)

/-- A failing CFG raises PinConfigurationError with the role and the platform's error (R132, R134, R201, R206). That the pin
table is left as it was is the spec's own reading of a failed call, which the model follows (log 20, PRESUMED, unsafe;
U19). -/
def Obligations.FailedCfgRaisesPinConfigurationError : Prop :=
  ∀ (s : State) (r : Role) (e : PlatErr), s.busy →
    (∀ l, s.platformAnswer (.cfg (s.pin r) (.out l)) = some e →
      exec (.cfg r .out l) s =
        .next (afterFailure s (.cfg (s.pin r) (.out l)) e 0x30001#18 (.config r e))) ∧
    (s.platformAnswer (.cfg (s.pin r) .inp) = some e →
      exec (.cfg r .inp .low) s =
        .next (afterFailure s (.cfg (s.pin r) .inp) e 0x30001#18 (.config r e)))

/-- Under the ideal platform a call never fails, except that a configuration fails when the pin is not Free; and then INIT
from Free pins succeeds, READ never raises, TEARDOWN succeeds (R56). An INIT that names a pin that is not Free, left
claimed by an earlier owner, fails with PinConfigurationError and the platform's error (R113, R201, R232). That the ideal
platform answers every refusal with the one error `e` is the model's choice (log 7, DESIGN CHOICE): R56 names no error,
and the vectors let it differ from call to call. -/
def Obligations.IdealPlatformSucceeds : Prop :=
  ∀ (s : State) (e : PlatErr), s.callScript = [] → s.platform = .ideal e →
    (∀ c : PlatCall, s.platformAnswer c ≠ none ↔ ∃ p k, c = .cfg p k ∧ s.pins.get p ≠ .free) ∧
    (s.upc = ⟨.idle, 0#6⟩ →
      (∀ (w : Byte) (cs clk din : PinId), w ∈ [0x00#8, 0x10#8, 0x20#8] → s.lifecycle = .uninitialized →
        cs ≠ clk → cs ≠ din → clk ≠ din →
        s.pins.get cs = .free → s.pins.get clk = .free → s.pins.get din = .free →
        ∃ t, runCommand ⟨w, cs, clk, din⟩ s = .next t ∧ t.resp = 0x00000#18 ∧ t.lifecycle = .ready) ∧
      (∀ (w : Byte) (cs clk din : PinId), w ∈ [0x00#8, 0x10#8, 0x20#8] → s.lifecycle = .uninitialized →
        cs ≠ clk → cs ≠ din → clk ≠ din →
        (s.pins.get cs ≠ .free ∨ s.pins.get clk ≠ .free ∨ s.pins.get din ≠ .free) →
        ∃ t r, runCommand ⟨w, cs, clk, din⟩ s = .next t ∧ t.resp = 0x30001#18 ∧ t.respInfo = .config r e ∧
          t.lifecycle = .uninitialized) ∧
      (s.lifecycle = .ready → ∃ t, runCommand (bareCmd 0x40#8) s = .next t ∧ t.resp.extractLsb' 16 2 ≠ 3#2) ∧
      (s.lifecycle = .ready →
        ∃ t, runCommand (bareCmd 0x80#8) s = .next t ∧ t.resp = 0x00000#18 ∧ t.lifecycle = .released))

/-! ### The converter and the deserializer -/

/-- `VALUE * scale(UNIT) = convert(UNIT, r)` exactly, for every unit and every raw reading; `VALUE` is `r`, `r` or
`9r + 640`, at most 4095 and within 640 to 37495 for Fahrenheit, so nothing wraps; the scales are 1, 1/4 and 1/20, and the
numbers `r`, `r / 4` and `(9r + 640) / 20` (R186). -/
def Obligations.ScaledValueIsExact : Prop :=
  ∀ r : BitVec 12,
    (∀ u : TempUnit, ((scaledValue u r).toNat : ℚ) * scale u = convert u r) ∧
    (scaledValue .raw r).toNat = r.toNat ∧ (scaledValue .celsius r).toNat = r.toNat ∧
    (scaledValue .fahrenheit r).toNat = 9 * r.toNat + 640 ∧
    (scaledValue .raw r).toNat ≤ 4095 ∧ (scaledValue .celsius r).toNat ≤ 4095 ∧
    640 ≤ (scaledValue .fahrenheit r).toNat ∧ (scaledValue .fahrenheit r).toNat ≤ 37495 ∧
    scale .raw = 1 ∧ scale .celsius = 1 / 4 ∧ scale .fahrenheit = 1 / 20 ∧
    convert .raw r = r.toNat ∧ convert .celsius r = (r.toNat : ℚ) / 4 ∧
    convert .fahrenheit r = (9 * (r.toNat : ℚ) + 640) / 20

/-- The three conversions: `r`, `r / 4` and `(9r + 640) / 20`, equal to `r * 0.25 * 9/5 + 32`; none is negative, and they
run to 4095, 1023.75 and from 32 to 1874.75 (R182 to R185, R190). -/
def Obligations.ConversionFormulas : Prop :=
  ∀ r : BitVec 12,
    convert .raw r = r.toNat ∧ convert .celsius r = (r.toNat : ℚ) / 4 ∧
    convert .fahrenheit r = (9 * (r.toNat : ℚ) + 640) / 20 ∧
    convert .fahrenheit r = (r.toNat : ℚ) * (1 / 4) * (9 / 5) + 32 ∧
    0 ≤ convert .raw r ∧ convert .raw r ≤ 4095 ∧
    0 ≤ convert .celsius r ∧ convert .celsius r ≤ 1023 + 3 / 4 ∧
    32 ≤ convert .fahrenheit r ∧ convert .fahrenheit r ≤ 1874 + 3 / 4

/-- The conversions and the scaled integers are strictly increasing in the raw reading, so the raw reading can be
recovered from the number (R188). -/
def Obligations.ConversionIsStrictlyIncreasing : Prop :=
  (∀ (u : TempUnit) (r1 r2 : BitVec 12), r1.toNat < r2.toNat →
    convert u r1 < convert u r2 ∧ (scaledValue u r1).toNat < (scaledValue u r2).toNat) ∧
  (∀ (u : TempUnit) (r1 r2 : BitVec 12), convert u r1 = convert u r2 → r1 = r2)

/-- The cross-check identity, in exact arithmetic and in scaled integers (R189). -/
def Obligations.CrossCheckIdentity : Prop :=
  ∀ r : BitVec 12,
    convert .celsius r = r.toNat * (1 / 4) ∧ convert .fahrenheit r = r.toNat * (1 / 4) * (9 / 5) + 32 ∧
    convert .fahrenheit r = convert .celsius r * (9 / 5) + 32 ∧
    (scaledValue .fahrenheit r).toNat = 9 * (scaledValue .celsius r).toNat + 640

/-- A 12-bit shift register cleared at the start and fed the twelve data bits in the order sampled (index 11 first) ends
with the indexed sum of the bits (R166). -/
def Obligations.ShiftRegisterAgrees : Prop :=
  ∀ b : Fin 12 → Level,
    ((([11, 10, 9, 8, 7, 6, 5, 4, 3, 2, 1, 0] : List (Fin 12)).map b).foldl shiftIn 0#12).toNat = indexedSum b

/-! ### Reset -/

/-- What reset leaves, as the spec states it: Uninitialized, (Idle, 0), `RESP_VALID = 0`, an empty trace (R36, R231); and
the same at the start of a further run, whatever run went before, with the platform pin table carried over untouched
(R230, R232). Another run starts only when no command is under way: a reset in the middle of a command is refused, and
nothing is said of what it would do (R11, R233; log 19). -/
def Obligations.ResetValues : Prop :=
  (State.reset.lifecycle = .uninitialized ∧ State.reset.upc = ⟨.idle, 0#6⟩ ∧ State.reset.respValid = false ∧
    State.reset.trace = []) ∧
  (∀ s : State, s.upc.prog = .idle →
    ∃ t, s.restart = .next t ∧ t.lifecycle = .uninitialized ∧ t.upc = ⟨.idle, 0#6⟩ ∧
      t.respValid = false ∧ t.trace = [] ∧ t.pins = s.pins) ∧
  (∀ s : State, s.busy → s.restart = .refused .resetWhileBusy)

/-- The registers the spec leaves unspecified hold, after reset and at the start of a further run, the values the model
names (log 9); and the pin table at the launch holds for every pin whatever the launch found, in canonical form (log 8). -/
def Obligations.ResetChoices : Prop :=
  (∀ s t : State, t = State.reset ∨ s.restart = .next t →
    t.unit = .raw ∧ t.pinCs = ⟨0⟩ ∧ t.pinClk = ⟨0⟩ ∧ t.pinDin = ⟨0⟩ ∧
    t.raw = 0#12 ∧ t.fault = 0#1 ∧ t.resp = 0#18 ∧ t.respInfo = .none) ∧
  (∀ p, State.reset.pins.get p = Config.launchPins p) ∧ State.reset.pins.wf = true

/-- The invariant holds after reset, and at the start of a further run with whatever canonical table the run before it
left (R36, R230). That RESP then holds a legal word with a side value that fits is the model's choice of reset values
(log 9, DESIGN CHOICE: R36 leaves RESP and RESP_INFO unspecified). -/
def Obligations.ResetMeetsInv : Prop :=
  Inv State.reset ∧ ∀ s t : State, s.pins.wf = true → s.restart = .next t → Inv t

/-! ### Invariants every step keeps -/

/-- Every step keeps the whole invariant, from every state that meets it: canonical pin table, legal `UPC`, lifecycle and
distinct pins, pin directions, unsampled bits of RAW at 0, levels of a READ, a legal response word (R24, R35, R95, R164,
R207). Two parts say more than the rules: that `RESP_INFO` is none beside a response that is not an Err (log 13, DEDUCED),
and that the pin directions hold also during a READ and after a failed one (log 23, DEDUCED). -/
def Obligations.StepKeepsInv : Prop :=
  ∀ s t : State, Inv s → step s = .next t → Inv t

/-- Every step keeps the canonical form of the pin table, and what its unlisted pins hold; and equal tables are equal data:
two canonical tables over one base that read the same at every pin are one (R31). -/
def Obligations.StepKeepsPinTableCanonical : Prop :=
  (∀ s t : State, s.pins.wf = true → step s = .next t → t.pins.wf = true ∧ t.pins.base = s.pins.base) ∧
  (∀ t u : PinTable, t.wf = true → u.wf = true → t.base = u.base → (∀ p, t.get p = u.get p) → t = u)

/-- Every step keeps `UPC` legal: `idx` never passes the last entry, and is 0 when idle (R24). -/
def Obligations.StepKeepsUpcLegal : Prop :=
  ∀ s t : State, UpcLegal s → step s = .next t → UpcLegal t

/-- Whenever the controller is Ready, the three pins are pairwise distinct: every step keeps this, with the lifecycle state
each micro-program runs in (R35, R110). -/
def Obligations.StepKeepsLifecycleLegal : Prop :=
  ∀ s t : State, LifecycleLegal s → step s = .next t → LifecycleLegal t

/-- The directions of the pins are set one by one by INIT and kept while Ready, until TEARDOWN releases them (R35, R54, R55,
R150, R151). R35 says this of a Ready controller that is not busy and has seen no failed call; that it holds also during a
READ and after a failed one is the model's inference (log 23, DEDUCED). -/
def Obligations.StepKeepsPinsConfigured : Prop :=
  ∀ s t : State, LifecycleLegal s → PinsConfigured s → step s = .next t → PinsConfigured t

/-- The bits of RAW not yet sampled are 0 during a READ, so no sample ever carries (R164). -/
def Obligations.StepKeepsUnsampledZero : Prop :=
  ∀ s t : State, UnsampledZero s → step s = .next t → UnsampledZero t

/-- During a READ chip-select and clock stand at the levels the entries before `UPC` have written (R151, R153, R207). -/
def Obligations.StepKeepsReadLevels : Prop :=
  ∀ s t : State, LifecycleLegal s → ReadLevels s → step s = .next t → ReadLevels t

/-- A step keeps `RESP` a word of format R with the side value that goes with it (R95, R200). That the side value is none
beside Ok, Value and Fault is the model's reading of R95 (log 13, DEDUCED); that `RESP` is such a word at reset is the
model's choice (log 9). -/
def Obligations.StepKeepsRespLegal : Prop :=
  ∀ s t : State, RespLegal s → step s = .next t → RespLegal t

/-- A machine with a legal `UPC` never stops: every step answers a next state (R24, R94). This rests on two choices of the
model: an exception is a next state, where R11 calls the step a fault (log 2), and every platform call returns, as U11 asks
such a claim to assume (log 19). -/
def Obligations.LegalUpcNeverStops : Prop :=
  ∀ s : State, UpcLegal s → ∃ t, step s = .next t

/-! ### Rules of the whole machine -/

/-- The only edges of the lifecycle: Uninitialized to Ready at the end of INIT, Ready to Released at the end of TEARDOWN or
when it fails; Released is terminal (R26, R212). -/
def Obligations.LifecycleEdges : Prop :=
  ∀ s t : State, LifecycleLegal s → step s = .next t →
    t.lifecycle = s.lifecycle ∨
    (s.lifecycle = .uninitialized ∧ t.lifecycle = .ready ∧ s.upc.prog = .initP) ∨
    (s.lifecycle = .ready ∧ t.lifecycle = .released ∧ s.upc.prog = .tdP)

/-- `UNIT` and the pin registers are written only by an admitted INIT: a step either leaves all four as they are, or it
admits, in an idle and uninitialized controller, an INIT word, whose unit and operands they then hold (R27, R28, R110). -/
def Obligations.UnitAndPinsAreImmutable : Prop :=
  ∀ s t : State, step s = .next t →
    (t.unit = s.unit ∧ t.pinCs = s.pinCs ∧ t.pinClk = s.pinClk ∧ t.pinDin = s.pinDin) ∨
    (s.upc.prog = .idle ∧ s.lifecycle = .uninitialized ∧ ∃ c rest, s.hostProgram = c :: rest ∧
      c.word ∈ [0x00#8, 0x10#8, 0x20#8] ∧ t.unit.code = c.word.extractLsb' 4 2 ∧
      t.pinCs = c.cs ∧ t.pinClk = c.clk ∧ t.pinDin = c.din)

/-- A step touches only the three pins it owns: every other pin of the table reads as before; and an admission touches no
pin at all (R51, R110). -/
def Obligations.OnlyOwnPinsChange : Prop :=
  ∀ s t : State, step s = .next t →
    (∀ p, p ≠ s.pinCs → p ≠ s.pinClk → p ≠ s.pinDin → t.pins.get p = s.pins.get p) ∧
    (s.upc.prog = .idle → t.pins = s.pins)

/-- A step appends at most one event; it writes only chip-select and clock and reads only data-in; in a READ it configures
and releases nothing (R51, R54, R67). -/
def Obligations.EventsOfOneStep : Prop :=
  ∀ s t : State, step s = .next t →
    t.trace = s.trace ∨
    ∃ ev, t.trace = s.trace ++ [ev] ∧
      (∀ p l, ev = .write p l → p = s.pinCs ∨ p = s.pinClk) ∧
      (∀ p b, ev = .read p b → p = s.pinDin ∧ b = s.dinAnswer) ∧
      (s.upc.prog = .readP → (∀ p c, ev ≠ .cfg p c) ∧ (∀ p, ev ≠ .rel p))

/-- The response is written only by the step that ends a command: as long as the controller is busy after a step, `RESP`
and its side value are as before and `RESP_VALID` is as it was, or cleared by the admission (R29, R110). -/
def Obligations.ResponseOnlyAtTheEnd : Prop :=
  ∀ s t : State, step s = .next t → t.busy →
    t.resp = s.resp ∧ t.respInfo = s.respInfo ∧ (s.busy → t.respValid = s.respValid) ∧
    (s.upc.prog = .idle → t.respValid = false)

/-! ### The command level -/

/-- Every micro-program ends: from entry `idx` the sequencer is idle again after at most as many steps as entries are left,
whatever the platform and the sensor answer (R131). Every platform call returns in this model, the premise U11 asks for
(log 19). -/
def Obligations.MicroProgramsEnd : Prop :=
  ∀ s : State, UpcLegal s → s.busy →
    ∃ t, runToIdle ((rom s.upc.prog).length - s.upc.idx.toNat) s = .next t ∧ t.upc = ⟨.idle, 0#6⟩

/-- Every command word, presented to an idle controller in any state, gets its response: the command runs to its end, the
sequencer is idle, `RESP_VALID` is 1, and what else the host has to present still waits (R110, R131). Every platform call
returns in this model, the premise U11 asks for (log 19). -/
def Obligations.EveryCommandIsAnswered : Prop :=
  ∀ (s : State) (c : HostCmd), s.upc = ⟨.idle, 0#6⟩ →
    ∃ t, runCommand c s = .next t ∧ t.upc = ⟨.idle, 0#6⟩ ∧ t.respValid = true ∧ t.hostProgram = s.hostProgram

/-- INIT as one command, for whatever the platform answers. If it lets all three configurations succeed: the controller is
Ready, the pins are configured, the trace has the three events, the response is `Ok`. If the configuration number `n`,
counted from 0, is the first it fails, with the error `e` it answers: the pins before it stay configured, the others read
as before, the controller is still Uninitialized, and the response is PinConfigurationError with that role and that `e`
(R113). That the pin of the failed configuration reads as before is log 20 (PRESUMED, unsafe; U19). -/
def Obligations.InitCommand : Prop :=
  ∀ (s : State) (cs clk din : PinId) (w : Byte) (u : TempUnit),
    (w, u) ∈ [(0x00#8, TempUnit.raw), (0x10#8, .celsius), (0x20#8, .fahrenheit)] →
    s.upc = ⟨.idle, 0#6⟩ → s.lifecycle = .uninitialized → cs ≠ clk → cs ≠ din → clk ≠ din →
    ∃ t, runCommand ⟨w, cs, clk, din⟩ s = .next t ∧
      t.unit = u ∧ t.pinCs = cs ∧ t.pinClk = clk ∧ t.pinDin = din ∧ t.raw = s.raw ∧ t.fault = s.fault ∧
      t.respValid = true ∧ t.upc = ⟨.idle, 0#6⟩ ∧
      (firstFailure s (initEvents cs clk din) = none →
        t.lifecycle = .ready ∧ t.resp = 0x00000#18 ∧ t.trace = s.trace ++ initEvents cs clk din ∧
        ∀ q, t.pins.get q = initPins s cs clk din 3 q) ∧
      (∀ n c e, firstFailure s (initEvents cs clk din) = some (n, c, e) →
        t.lifecycle = .uninitialized ∧ t.resp = 0x30001#18 ∧
        (∃ r, [Role.cs, .clk, .din][n]? = some r ∧ t.respInfo = .config r e) ∧
        t.trace = s.trace ++ (initEvents cs clk din).take n ++ [.fail c e] ∧
        ∀ q, t.pins.get q = initPins s cs clk din n q)

/-- READ as one command, for whatever the platform and the sensor answer. There are twelve data bits and a fault bit, the
levels data-in has at the thirteen samples, and with the 53 events they make: if the platform lets every call succeed, the
trace gains the 53 events, RAW is the sum of the data bits, FAULT the fault bit, chip-select ends high and clock low, and
the response is `Fault` or the converted value (R115). If the call of event `n`, counted from 0, is the first it fails,
with the error `e` it answers: the trace gains the events before it and the `Fail` event, RAW and FAULT hold what was
sampled so far, the pins are as the events before it left them, with the levels of R207, and the response is PinIOError
with that `e` (R202, R206). The controller stays Ready either way. `RESP_INFO` none beside a response that is not an Err
is log 13 (DEDUCED); that the failed call leaves its pin as it was is log 20 (PRESUMED, unsafe). -/
def Obligations.ReadCommand : Prop :=
  ∀ s : State, s.upc = ⟨.idle, 0#6⟩ → s.lifecycle = .ready → pinsDistinct s.pinCs s.pinClk s.pinDin →
    ∃ t b f, runCommand (bareCmd 0x40#8) s = .next t ∧
      Sensed { s with readNo := s.readNo + 1 } (readEvents s.pinCs s.pinClk s.pinDin b f) ∧
      t.lifecycle = .ready ∧ t.unit = s.unit ∧ t.pinCs = s.pinCs ∧ t.pinClk = s.pinClk ∧ t.pinDin = s.pinDin ∧
      t.respValid = true ∧ t.upc = ⟨.idle, 0#6⟩ ∧
      (∀ q, q ≠ s.pinCs → q ≠ s.pinClk → t.pins.get q = s.pins.get q) ∧
      (firstFailure { s with readNo := s.readNo + 1 } (readEvents s.pinCs s.pinClk s.pinDin b f) = none →
        t.trace = s.trace ++ readEvents s.pinCs s.pinClk s.pinDin b f ∧
        t.raw.toNat = indexedSum b ∧ t.fault = f.bit ∧
        t.pins.get s.pinCs = .out .high ∧ t.pins.get s.pinClk = .out .low ∧
        t.resp = readResponse s.unit t.raw f ∧ t.respInfo = .none) ∧
      (∀ n c e,
        firstFailure { s with readNo := s.readNo + 1 } (readEvents s.pinCs s.pinClk s.pinDin b f) = some (n, c, e) →
        t.trace = s.trace ++ (readEvents s.pinCs s.pinClk s.pinDin b f).take n ++ [.fail c e] ∧
        (∀ j : Fin 12, t.raw.getLsbD j.val = rawBitAfter b n j) ∧ t.fault = faultAfterEvents f n ∧
        t.pins = (s.performedAll ((readEvents s.pinCs s.pinClk s.pinDin b f).take n)).pins ∧
        (s.pins.get s.pinCs = .out .high → s.pins.get s.pinClk = .out .low →
          t.pins.get s.pinCs = .out (csLevelAtEvent n) ∧ t.pins.get s.pinClk = .out (clkLevelAtCall s.pinClk c)) ∧
        t.resp = 0x30002#18 ∧ t.respInfo = .io e)

/-- READ with scripted answers: the environment's scripts have the next 49 calls succeed and the next thirteen reads yield
the given bits, most significant data bit first. The scripts are the model's own (logs 5 and 6, DESIGN CHOICE), so this is
narrower than R115, which speaks of any platform; ReadCommand states it for any. RAW is their sum, FAULT the fault bit,
the controller stays Ready with chip-select high and clock low, the trace gains the 53 events, and the response is a
function of the unit and the thirteen bits alone, as R115 has it (R163, R165). The pins are distinct, which every step keeps while Ready (StepKeepsLifecycleLegal). -/
def Obligations.ReadDecodesTheSampledBits : Prop :=
  ∀ (s : State) (b : Fin 12 → Level) (f : Level) (calls : List (Option PlatErr)) (levels : List Level),
    s.upc = ⟨.idle, 0#6⟩ → s.lifecycle = .ready → pinsDistinct s.pinCs s.pinClk s.pinDin →
    s.callScript = List.replicate 49 none ++ calls →
    s.dinScript = [b 11, b 10, b 9, b 8, b 7, b 6, b 5, b 4, b 3, b 2, b 1, b 0, f] ++ levels →
    ∃ t, runCommand (bareCmd 0x40#8) s = .next t ∧
      t.trace = s.trace ++ readEvents s.pinCs s.pinClk s.pinDin b f ∧
      t.raw.toNat = indexedSum b ∧ t.fault = f.bit ∧ t.resp = readResponse s.unit t.raw f ∧
      t.lifecycle = .ready ∧ t.pins.get s.pinCs = .out .high ∧ t.pins.get s.pinClk = .out .low ∧
      t.callScript = calls ∧ t.dinScript = levels

/-- The response of a READ in which no call fails depends on the unit and the thirteen bits read and on nothing else: not
on earlier reads, the previous RAW, or the pin levels at the start (R115). That no call fails and which bits are read is
said by the environment's scripts (logs 5 and 6, DESIGN CHOICE), of which both states have the same 49 successes and 13
levels. -/
def Obligations.ReadResponseDependsOnlyOnTheBits : Prop :=
  ∀ s1 s2 : State,
    s1.upc = ⟨.idle, 0#6⟩ → s2.upc = ⟨.idle, 0#6⟩ → s1.lifecycle = .ready → s2.lifecycle = .ready →
    s1.unit = s2.unit →
    s1.callScript.take 49 = List.replicate 49 none → s2.callScript.take 49 = List.replicate 49 none →
    13 ≤ s1.dinScript.length → s1.dinScript.take 13 = s2.dinScript.take 13 →
    ∃ t1 t2, runCommand (bareCmd 0x40#8) s1 = .next t1 ∧ runCommand (bareCmd 0x40#8) s2 = .next t2 ∧
      t1.resp = t2.resp ∧ t1.raw = t2.raw ∧ t1.fault = t2.fault

/-- READ under a frame source on the ideal platform: with the frame `F` for this READ, RAW is `F[14:3]` and FAULT is
`F[2]`, and the trace gains the events of a READ that reads `F[14]` down to `F[3]` and then `F[2]`: bits 15, 1 and 0 are
not read (R64, R82, R83, R84). That the frame of this READ is the one numbered by the READs admitted before it is the
model's numbering (log 21, DESIGN CHOICE). -/
def Obligations.ReadUnderAFrameSource : Prop :=
  ∀ (s : State) (e : PlatErr) (fs : List (BitVec 16)) (F : BitVec 16),
    s.upc = ⟨.idle, 0#6⟩ → s.lifecycle = .ready → pinsDistinct s.pinCs s.pinClk s.pinDin →
    s.callScript = [] → s.platform = .ideal e → s.dinScript = [] → s.sensor = .frames fs →
    fs[s.readNo]? = some F →
    ∃ t, runCommand (bareCmd 0x40#8) s = .next t ∧
      t.raw = F.extractLsb' 3 12 ∧ t.fault = F.extractLsb' 2 1 ∧
      t.resp = readResponse s.unit (F.extractLsb' 3 12) (levelOfBool (F.getLsbD 2)) ∧
      t.trace = s.trace ++ readEvents s.pinCs s.pinClk s.pinDin (fun i => levelOfBool (F.getLsbD (i.val + 3)))
        (levelOfBool (F.getLsbD 2)) ∧
      t.readNo = s.readNo + 1

/-- TEARDOWN as one command from Ready, for whatever the platform answers: the driver is Released. If it lets all three
releases succeed: all three pins are Free and the response is `Ok`. If the release number `n`, counted from 0, is the
first it fails, with the error `e` it answers: the ones before it have been done, the others have not been attempted, and
the response is PinIOError with that `e` (R117, R202, R207). That the pin of the failed release reads as before is log 20
(PRESUMED, unsafe; U19). -/
def Obligations.TeardownCommand : Prop :=
  ∀ s : State, s.upc = ⟨.idle, 0#6⟩ → s.lifecycle = .ready → pinsDistinct s.pinCs s.pinClk s.pinDin →
    ∃ t, runCommand (bareCmd 0x80#8) s = .next t ∧
      t.lifecycle = .released ∧ t.respValid = true ∧ t.upc = ⟨.idle, 0#6⟩ ∧ t.raw = s.raw ∧ t.fault = s.fault ∧
      t.unit = s.unit ∧
      (firstFailure s (teardownEvents s.pinCs s.pinClk s.pinDin) = none →
        t.resp = 0x00000#18 ∧ t.trace = s.trace ++ teardownEvents s.pinCs s.pinClk s.pinDin ∧
        ∀ q, t.pins.get q = teardownPins s 3 q) ∧
      (∀ n c e, firstFailure s (teardownEvents s.pinCs s.pinClk s.pinDin) = some (n, c, e) →
        t.resp = 0x30002#18 ∧ t.respInfo = .io e ∧
        t.trace = s.trace ++ (teardownEvents s.pinCs s.pinClk s.pinDin).take n ++ [.fail c e] ∧
        ∀ q, t.pins.get q = teardownPins s n q)

/-- The waveform of a READ that does not fail: 53 events, of which 4 chip-select writes, 16 clock writes to high and 16 to
low, 13 data-in reads and 4 waits (R151, R153). -/
def Obligations.ReadTraceCounts : Prop :=
  ∀ (cs clk din : PinId) (b : Fin 12 → Level) (f : Level), pinsDistinct cs clk din →
    (readEvents cs clk din b f).length = 53 ∧
    (readEvents cs clk din b f).count (.write cs .low) = 2 ∧
    (readEvents cs clk din b f).count (.write cs .high) = 2 ∧
    (readEvents cs clk din b f).count (.write clk .high) = 16 ∧
    (readEvents cs clk din b f).count (.write clk .low) = 16 ∧
    (readEvents cs clk din b f).count (.read din .low) + (readEvents cs clk din b f).count (.read din .high) = 13 ∧
    (readEvents cs clk din b f).count (.wait .tCslow) = 1 ∧ (readEvents cs clk din b f).count (.wait .tConv) = 1 ∧
    (readEvents cs clk din b f).count (.wait .tPulse) = 2
end

