-- ==== Sys2Proof/Laws/Decode.lean ====
section
/-!
SUPPORT. What each legal command word decodes to, with any operand lines (30_encoding.md R86, R87).
-/

namespace Sys2Proof

theorem decodeH_of_decodeOp {c : HostCmd} {op : HostOp} (h : decodeOp c.word = .ok op) :
    decodeH c = .ok (hostInstr op c) := by
  simp only [decodeH, h]

theorem decodeH_initRaw (cs clk din : PinId) : decodeH ⟨0x00#8, cs, clk, din⟩ = .ok (.initRaw cs clk din) :=
  decodeH_of_decodeOp (c := ⟨0x00#8, cs, clk, din⟩) (op := .init .raw)
    (show decodeOp 0x00#8 = .ok (.init .raw) by decide)

theorem decodeH_initC (cs clk din : PinId) : decodeH ⟨0x10#8, cs, clk, din⟩ = .ok (.initC cs clk din) :=
  decodeH_of_decodeOp (c := ⟨0x10#8, cs, clk, din⟩) (op := .init .celsius)
    (show decodeOp 0x10#8 = .ok (.init .celsius) by decide)

theorem decodeH_initF (cs clk din : PinId) : decodeH ⟨0x20#8, cs, clk, din⟩ = .ok (.initF cs clk din) :=
  decodeH_of_decodeOp (c := ⟨0x20#8, cs, clk, din⟩) (op := .init .fahrenheit)
    (show decodeOp 0x20#8 = .ok (.init .fahrenheit) by decide)

theorem decodeH_read (cs clk din : PinId) : decodeH ⟨0x40#8, cs, clk, din⟩ = .ok .read :=
  decodeH_of_decodeOp (c := ⟨0x40#8, cs, clk, din⟩) (op := .read)
    (show decodeOp 0x40#8 = .ok (.read) by decide)

theorem decodeH_teardown (cs clk din : PinId) : decodeH ⟨0x80#8, cs, clk, din⟩ = .ok .teardown :=
  decodeH_of_decodeOp (c := ⟨0x80#8, cs, clk, din⟩) (op := .teardown)
    (show decodeOp 0x80#8 = .ok (.teardown) by decide)

end Sys2Proof
end

