-- ==== Sys2Proof/Laws/State.lean ====
section
/-!
SUPPORT. What each shared update of the state does to each field: one lemma per field per update, true by unfolding.
-/

namespace Sys2Proof.Machine

/-! ### `State.advance`: `upc <- upc + 1` writes `upc`. -/

@[simp] theorem State.advance_lifecycle (s : State) : (s.advance).lifecycle = s.lifecycle := rfl
@[simp] theorem State.advance_unit (s : State) : (s.advance).unit = s.unit := rfl
@[simp] theorem State.advance_pinCs (s : State) : (s.advance).pinCs = s.pinCs := rfl
@[simp] theorem State.advance_pinClk (s : State) : (s.advance).pinClk = s.pinClk := rfl
@[simp] theorem State.advance_pinDin (s : State) : (s.advance).pinDin = s.pinDin := rfl
@[simp] theorem State.advance_raw (s : State) : (s.advance).raw = s.raw := rfl
@[simp] theorem State.advance_fault (s : State) : (s.advance).fault = s.fault := rfl
@[simp] theorem State.advance_upc (s : State) : (s.advance).upc = { s.upc with idx := s.upc.idx + 1 } := rfl
@[simp] theorem State.advance_resp (s : State) : (s.advance).resp = s.resp := rfl
@[simp] theorem State.advance_respInfo (s : State) : (s.advance).respInfo = s.respInfo := rfl
@[simp] theorem State.advance_respValid (s : State) : (s.advance).respValid = s.respValid := rfl
@[simp] theorem State.advance_trace (s : State) : (s.advance).trace = s.trace := rfl
@[simp] theorem State.advance_pins (s : State) : (s.advance).pins = s.pins := rfl
@[simp] theorem State.advance_callScript (s : State) : (s.advance).callScript = s.callScript := rfl
@[simp] theorem State.advance_platform (s : State) : (s.advance).platform = s.platform := rfl
@[simp] theorem State.advance_dinScript (s : State) : (s.advance).dinScript = s.dinScript := rfl
@[simp] theorem State.advance_sensor (s : State) : (s.advance).sensor = s.sensor := rfl
@[simp] theorem State.advance_hostProgram (s : State) : (s.advance).hostProgram = s.hostProgram := rfl
@[simp] theorem State.advance_draws (s : State) : (s.advance).draws = s.draws := rfl
@[simp] theorem State.advance_readNo (s : State) : (s.advance).readNo = s.readNo := rfl

/-! ### `State.answered`: An answered platform call writes the trace, the script and the counter. -/

@[simp] theorem State.answered_lifecycle (s : State) (ev : Event) : (s.answered ev).lifecycle = s.lifecycle := rfl
@[simp] theorem State.answered_unit (s : State) (ev : Event) : (s.answered ev).unit = s.unit := rfl
@[simp] theorem State.answered_pinCs (s : State) (ev : Event) : (s.answered ev).pinCs = s.pinCs := rfl
@[simp] theorem State.answered_pinClk (s : State) (ev : Event) : (s.answered ev).pinClk = s.pinClk := rfl
@[simp] theorem State.answered_pinDin (s : State) (ev : Event) : (s.answered ev).pinDin = s.pinDin := rfl
@[simp] theorem State.answered_raw (s : State) (ev : Event) : (s.answered ev).raw = s.raw := rfl
@[simp] theorem State.answered_fault (s : State) (ev : Event) : (s.answered ev).fault = s.fault := rfl
@[simp] theorem State.answered_upc (s : State) (ev : Event) : (s.answered ev).upc = s.upc := rfl
@[simp] theorem State.answered_resp (s : State) (ev : Event) : (s.answered ev).resp = s.resp := rfl
@[simp] theorem State.answered_respInfo (s : State) (ev : Event) : (s.answered ev).respInfo = s.respInfo := rfl
@[simp] theorem State.answered_respValid (s : State) (ev : Event) : (s.answered ev).respValid = s.respValid := rfl
@[simp] theorem State.answered_trace (s : State) (ev : Event) : (s.answered ev).trace = s.trace ++ [ev] := rfl
@[simp] theorem State.answered_pins (s : State) (ev : Event) : (s.answered ev).pins = s.pins := rfl
@[simp] theorem State.answered_callScript (s : State) (ev : Event) : (s.answered ev).callScript = s.callScript.tail := rfl
@[simp] theorem State.answered_platform (s : State) (ev : Event) : (s.answered ev).platform = s.platform := rfl
@[simp] theorem State.answered_dinScript (s : State) (ev : Event) : (s.answered ev).dinScript = s.dinScript := rfl
@[simp] theorem State.answered_sensor (s : State) (ev : Event) : (s.answered ev).sensor = s.sensor := rfl
@[simp] theorem State.answered_hostProgram (s : State) (ev : Event) : (s.answered ev).hostProgram = s.hostProgram := rfl
@[simp] theorem State.answered_draws (s : State) (ev : Event) : (s.answered ev).draws = s.draws + 1 := rfl
@[simp] theorem State.answered_readNo (s : State) (ev : Event) : (s.answered ev).readNo = s.readNo := rfl

/-! ### `State.answer`: A response writes `RESP`, its side value, `RESP_VALID` and `UPC`. -/

@[simp] theorem State.answer_lifecycle (s : State) (r : Response) : (s.answer r).lifecycle = s.lifecycle := rfl
@[simp] theorem State.answer_unit (s : State) (r : Response) : (s.answer r).unit = s.unit := rfl
@[simp] theorem State.answer_pinCs (s : State) (r : Response) : (s.answer r).pinCs = s.pinCs := rfl
@[simp] theorem State.answer_pinClk (s : State) (r : Response) : (s.answer r).pinClk = s.pinClk := rfl
@[simp] theorem State.answer_pinDin (s : State) (r : Response) : (s.answer r).pinDin = s.pinDin := rfl
@[simp] theorem State.answer_raw (s : State) (r : Response) : (s.answer r).raw = s.raw := rfl
@[simp] theorem State.answer_fault (s : State) (r : Response) : (s.answer r).fault = s.fault := rfl
@[simp] theorem State.answer_upc (s : State) (r : Response) : (s.answer r).upc = ⟨.idle, 0#6⟩ := rfl
@[simp] theorem State.answer_resp (s : State) (r : Response) : (s.answer r).resp = r.word := rfl
@[simp] theorem State.answer_respInfo (s : State) (r : Response) : (s.answer r).respInfo = r.info := rfl
@[simp] theorem State.answer_respValid (s : State) (r : Response) : (s.answer r).respValid = true := rfl
@[simp] theorem State.answer_trace (s : State) (r : Response) : (s.answer r).trace = s.trace := rfl
@[simp] theorem State.answer_pins (s : State) (r : Response) : (s.answer r).pins = s.pins := rfl
@[simp] theorem State.answer_callScript (s : State) (r : Response) : (s.answer r).callScript = s.callScript := rfl
@[simp] theorem State.answer_platform (s : State) (r : Response) : (s.answer r).platform = s.platform := rfl
@[simp] theorem State.answer_dinScript (s : State) (r : Response) : (s.answer r).dinScript = s.dinScript := rfl
@[simp] theorem State.answer_sensor (s : State) (r : Response) : (s.answer r).sensor = s.sensor := rfl
@[simp] theorem State.answer_hostProgram (s : State) (r : Response) : (s.answer r).hostProgram = s.hostProgram := rfl
@[simp] theorem State.answer_draws (s : State) (r : Response) : (s.answer r).draws = s.draws := rfl
@[simp] theorem State.answer_readNo (s : State) (r : Response) : (s.answer r).readNo = s.readNo := rfl

/-! ### `State.respond`: `respond` is `answer`. -/

@[simp] theorem State.respond_lifecycle (s : State) (r : Response) : (s.respond r).lifecycle = s.lifecycle := rfl
@[simp] theorem State.respond_unit (s : State) (r : Response) : (s.respond r).unit = s.unit := rfl
@[simp] theorem State.respond_pinCs (s : State) (r : Response) : (s.respond r).pinCs = s.pinCs := rfl
@[simp] theorem State.respond_pinClk (s : State) (r : Response) : (s.respond r).pinClk = s.pinClk := rfl
@[simp] theorem State.respond_pinDin (s : State) (r : Response) : (s.respond r).pinDin = s.pinDin := rfl
@[simp] theorem State.respond_raw (s : State) (r : Response) : (s.respond r).raw = s.raw := rfl
@[simp] theorem State.respond_fault (s : State) (r : Response) : (s.respond r).fault = s.fault := rfl
@[simp] theorem State.respond_upc (s : State) (r : Response) : (s.respond r).upc = ⟨.idle, 0#6⟩ := rfl
@[simp] theorem State.respond_resp (s : State) (r : Response) : (s.respond r).resp = r.word := rfl
@[simp] theorem State.respond_respInfo (s : State) (r : Response) : (s.respond r).respInfo = r.info := rfl
@[simp] theorem State.respond_respValid (s : State) (r : Response) : (s.respond r).respValid = true := rfl
@[simp] theorem State.respond_trace (s : State) (r : Response) : (s.respond r).trace = s.trace := rfl
@[simp] theorem State.respond_pins (s : State) (r : Response) : (s.respond r).pins = s.pins := rfl
@[simp] theorem State.respond_callScript (s : State) (r : Response) : (s.respond r).callScript = s.callScript := rfl
@[simp] theorem State.respond_platform (s : State) (r : Response) : (s.respond r).platform = s.platform := rfl
@[simp] theorem State.respond_dinScript (s : State) (r : Response) : (s.respond r).dinScript = s.dinScript := rfl
@[simp] theorem State.respond_sensor (s : State) (r : Response) : (s.respond r).sensor = s.sensor := rfl
@[simp] theorem State.respond_hostProgram (s : State) (r : Response) : (s.respond r).hostProgram = s.hostProgram := rfl
@[simp] theorem State.respond_draws (s : State) (r : Response) : (s.respond r).draws = s.draws := rfl
@[simp] theorem State.respond_readNo (s : State) (r : Response) : (s.respond r).readNo = s.readNo := rfl

/-! ### `State.raise`: Taking an exception writes what a response writes, and `LIFECYCLE` in a TEARDOWN (R206). -/

@[simp] theorem State.raise_lifecycle (s : State) (x : Exc) : (s.raise x).lifecycle = if s.upc.prog = .tdP then .released else s.lifecycle := rfl
@[simp] theorem State.raise_unit (s : State) (x : Exc) : (s.raise x).unit = s.unit := rfl
@[simp] theorem State.raise_pinCs (s : State) (x : Exc) : (s.raise x).pinCs = s.pinCs := rfl
@[simp] theorem State.raise_pinClk (s : State) (x : Exc) : (s.raise x).pinClk = s.pinClk := rfl
@[simp] theorem State.raise_pinDin (s : State) (x : Exc) : (s.raise x).pinDin = s.pinDin := rfl
@[simp] theorem State.raise_raw (s : State) (x : Exc) : (s.raise x).raw = s.raw := rfl
@[simp] theorem State.raise_fault (s : State) (x : Exc) : (s.raise x).fault = s.fault := rfl
@[simp] theorem State.raise_upc (s : State) (x : Exc) : (s.raise x).upc = ⟨.idle, 0#6⟩ := rfl
@[simp] theorem State.raise_resp (s : State) (x : Exc) : (s.raise x).resp = (Response.err x).word := rfl
@[simp] theorem State.raise_respInfo (s : State) (x : Exc) : (s.raise x).respInfo = x.info := rfl
@[simp] theorem State.raise_respValid (s : State) (x : Exc) : (s.raise x).respValid = true := rfl
@[simp] theorem State.raise_trace (s : State) (x : Exc) : (s.raise x).trace = s.trace := rfl
@[simp] theorem State.raise_pins (s : State) (x : Exc) : (s.raise x).pins = s.pins := rfl
@[simp] theorem State.raise_callScript (s : State) (x : Exc) : (s.raise x).callScript = s.callScript := rfl
@[simp] theorem State.raise_platform (s : State) (x : Exc) : (s.raise x).platform = s.platform := rfl
@[simp] theorem State.raise_dinScript (s : State) (x : Exc) : (s.raise x).dinScript = s.dinScript := rfl
@[simp] theorem State.raise_sensor (s : State) (x : Exc) : (s.raise x).sensor = s.sensor := rfl
@[simp] theorem State.raise_hostProgram (s : State) (x : Exc) : (s.raise x).hostProgram = s.hostProgram := rfl
@[simp] theorem State.raise_draws (s : State) (x : Exc) : (s.raise x).draws = s.draws := rfl
@[simp] theorem State.raise_readNo (s : State) (x : Exc) : (s.raise x).readNo = s.readNo := rfl

/-! ### `State.delay`: A delay writes the trace (R68). -/

@[simp] theorem State.delay_lifecycle (s : State) (k : DelayKind) : (s.delay k).lifecycle = s.lifecycle := rfl
@[simp] theorem State.delay_unit (s : State) (k : DelayKind) : (s.delay k).unit = s.unit := rfl
@[simp] theorem State.delay_pinCs (s : State) (k : DelayKind) : (s.delay k).pinCs = s.pinCs := rfl
@[simp] theorem State.delay_pinClk (s : State) (k : DelayKind) : (s.delay k).pinClk = s.pinClk := rfl
@[simp] theorem State.delay_pinDin (s : State) (k : DelayKind) : (s.delay k).pinDin = s.pinDin := rfl
@[simp] theorem State.delay_raw (s : State) (k : DelayKind) : (s.delay k).raw = s.raw := rfl
@[simp] theorem State.delay_fault (s : State) (k : DelayKind) : (s.delay k).fault = s.fault := rfl
@[simp] theorem State.delay_upc (s : State) (k : DelayKind) : (s.delay k).upc = s.upc := rfl
@[simp] theorem State.delay_resp (s : State) (k : DelayKind) : (s.delay k).resp = s.resp := rfl
@[simp] theorem State.delay_respInfo (s : State) (k : DelayKind) : (s.delay k).respInfo = s.respInfo := rfl
@[simp] theorem State.delay_respValid (s : State) (k : DelayKind) : (s.delay k).respValid = s.respValid := rfl
@[simp] theorem State.delay_trace (s : State) (k : DelayKind) : (s.delay k).trace = s.trace ++ [.wait k] := rfl
@[simp] theorem State.delay_pins (s : State) (k : DelayKind) : (s.delay k).pins = s.pins := rfl
@[simp] theorem State.delay_callScript (s : State) (k : DelayKind) : (s.delay k).callScript = s.callScript := rfl
@[simp] theorem State.delay_platform (s : State) (k : DelayKind) : (s.delay k).platform = s.platform := rfl
@[simp] theorem State.delay_dinScript (s : State) (k : DelayKind) : (s.delay k).dinScript = s.dinScript := rfl
@[simp] theorem State.delay_sensor (s : State) (k : DelayKind) : (s.delay k).sensor = s.sensor := rfl
@[simp] theorem State.delay_hostProgram (s : State) (k : DelayKind) : (s.delay k).hostProgram = s.hostProgram := rfl
@[simp] theorem State.delay_draws (s : State) (k : DelayKind) : (s.delay k).draws = s.draws := rfl
@[simp] theorem State.delay_readNo (s : State) (k : DelayKind) : (s.delay k).readNo = s.readNo := rfl

/-! ### `State.present`: Presenting a command writes `RESP_VALID` (R110). -/

@[simp] theorem State.present_lifecycle (s : State) : (s.present).lifecycle = s.lifecycle := rfl
@[simp] theorem State.present_unit (s : State) : (s.present).unit = s.unit := rfl
@[simp] theorem State.present_pinCs (s : State) : (s.present).pinCs = s.pinCs := rfl
@[simp] theorem State.present_pinClk (s : State) : (s.present).pinClk = s.pinClk := rfl
@[simp] theorem State.present_pinDin (s : State) : (s.present).pinDin = s.pinDin := rfl
@[simp] theorem State.present_raw (s : State) : (s.present).raw = s.raw := rfl
@[simp] theorem State.present_fault (s : State) : (s.present).fault = s.fault := rfl
@[simp] theorem State.present_upc (s : State) : (s.present).upc = s.upc := rfl
@[simp] theorem State.present_resp (s : State) : (s.present).resp = s.resp := rfl
@[simp] theorem State.present_respInfo (s : State) : (s.present).respInfo = s.respInfo := rfl
@[simp] theorem State.present_respValid (s : State) : (s.present).respValid = false := rfl
@[simp] theorem State.present_trace (s : State) : (s.present).trace = s.trace := rfl
@[simp] theorem State.present_pins (s : State) : (s.present).pins = s.pins := rfl
@[simp] theorem State.present_callScript (s : State) : (s.present).callScript = s.callScript := rfl
@[simp] theorem State.present_platform (s : State) : (s.present).platform = s.platform := rfl
@[simp] theorem State.present_dinScript (s : State) : (s.present).dinScript = s.dinScript := rfl
@[simp] theorem State.present_sensor (s : State) : (s.present).sensor = s.sensor := rfl
@[simp] theorem State.present_hostProgram (s : State) : (s.present).hostProgram = s.hostProgram := rfl
@[simp] theorem State.present_draws (s : State) : (s.present).draws = s.draws := rfl
@[simp] theorem State.present_readNo (s : State) : (s.present).readNo = s.readNo := rfl

end Sys2Proof.Machine
end

