-- ==== Sys2Proof/Laws/Flags.lean ====
section
/-!
SUPPORT. The response words as numbers (30_encoding.md R95, 60_exceptions.md R200).
-/

namespace Sys2Proof.Machine

@[simp] theorem Response.word_ok : Response.word .ok = 0x00000#18 := rfl

@[simp] theorem Response.word_fault : Response.word .fault = 0x20000#18 := rfl

@[simp] theorem Response.word_pinNotDistinct : Response.word (.err .pinNotDistinct) = 0x30001#18 := rfl

@[simp] theorem Response.word_pinConfig (r : Role) (e : PlatErr) :
    Response.word (.err (.pinConfig r e)) = 0x30001#18 := rfl

@[simp] theorem Response.word_pinIO (e : PlatErr) : Response.word (.err (.pinIO e)) = 0x30002#18 := rfl

@[simp] theorem Response.word_invalidState : Response.word (.err .invalidState) = 0x30003#18 := rfl

@[simp] theorem Response.word_illegalCommand : Response.word (.err .illegalCommand) = 0x30004#18 := rfl

@[simp] theorem Response.word_value (v : BitVec 16) :
    Response.word (.value v) = 0x10000#18 + v.zeroExtend 18 := rfl

/-- A `Value` response as a number: `0x10000 + v` (R95). -/
theorem Response.word_value_toNat (v : BitVec 16) : (Response.word (.value v)).toNat = 0x10000 + v.toNat := by
  have := v.isLt
  simp
  omega

end Sys2Proof.Machine
end

