-- ==== Sys2Proof/Laws/Pins.lean ====
section
/-!
SUPPORT. The laws of the platform pin table: reading after writing, and that every operation keeps the base and the
canonical form.
-/

namespace Sys2Proof

/-! ### The list of entries -/

theorem PinTable.find_erase (l : List (PinId × PinState)) (p q : PinId) :
    PinTable.find (PinTable.erase l p) q = if q = p then none else PinTable.find l q := by
  induction l with
  | nil => simp [PinTable.erase, PinTable.find]
  | cons c rest ih =>
    obtain ⟨r, y⟩ := c
    by_cases hr : r = p
    · subst hr
      by_cases hq : q = r
      · subst hq; simp [PinTable.erase, ih]
      · simp [PinTable.erase, ih, PinTable.find, hq, Ne.symm hq]
    · by_cases hq : r = q
      · subst hq; simp [PinTable.erase, PinTable.find, hr]
      · simp [PinTable.erase, PinTable.find, hr, hq, ih]

theorem PinTable.find_enter (l : List (PinId × PinState)) (p q : PinId) (x : PinState) :
    PinTable.find (PinTable.enter l p x) q = if q = p then some x else PinTable.find l q := by
  induction l with
  | nil => simp [PinTable.enter, PinTable.find, eq_comm]
  | cons c rest ih =>
    obtain ⟨r, y⟩ := c
    by_cases hlt : p.label < r.label
    · simp [PinTable.enter, hlt, PinTable.find, eq_comm]
    · by_cases hr : r = p
      · subst hr
        by_cases hq : q = r
        · subst hq; simp [PinTable.enter, PinTable.find]
        · simp [PinTable.enter, PinTable.find, hq, Ne.symm hq]
      · by_cases hq : r = q
        · subst hq; simp [PinTable.enter, PinTable.find, hlt, hr]
        · simp [PinTable.enter, PinTable.find, hlt, hr, hq, ih]

/-- Striking entries leaves some of those there were. -/
theorem PinTable.erase_sublist (l : List (PinId × PinState)) (p : PinId) : (PinTable.erase l p).Sublist l := by
  induction l with
  | nil => exact .slnil
  | cons c rest ih =>
    obtain ⟨r, y⟩ := c
    by_cases hr : r = p
    · simpa [PinTable.erase, hr] using List.Sublist.cons (r, y) ih
    · simpa [PinTable.erase, hr] using List.Sublist.cons_cons (r, y) ih

/-- What is listed after entering a pin was listed before, or is the new entry. -/
theorem PinTable.mem_enter {l : List (PinId × PinState)} {p : PinId} {x : PinState} {c : PinId × PinState}
    (h : c ∈ PinTable.enter l p x) : c = (p, x) ∨ c ∈ l := by
  induction l with
  | nil => simpa [PinTable.enter] using h
  | cons d rest ih =>
    obtain ⟨r, y⟩ := d
    by_cases hlt : p.label < r.label
    · simpa [PinTable.enter, hlt] using h
    · by_cases hr : r = p
      · subst hr
        simp only [PinTable.enter, hlt, if_false, if_true, List.mem_cons] at h ⊢
        exact h.imp id .inr
      · simp only [PinTable.enter, hlt, hr, if_false, List.mem_cons] at h ⊢
        rcases h with h | h
        · exact .inr (.inl h)
        · exact (ih h).imp id .inr

/-- Entering a pin keeps the labels rising. -/
theorem PinTable.enter_rising {l : List (PinId × PinState)}
    (h : l.Pairwise fun a b => a.1.label < b.1.label) (p : PinId) (x : PinState) :
    (PinTable.enter l p x).Pairwise fun a b => a.1.label < b.1.label := by
  induction l with
  | nil => simp [PinTable.enter]
  | cons c rest ih =>
    obtain ⟨r, y⟩ := c
    have hc := List.pairwise_cons.mp h
    by_cases hlt : p.label < r.label
    · simp only [PinTable.enter, hlt, if_true]
      refine List.pairwise_cons.mpr ⟨fun d hd => ?_, h⟩
      rcases List.mem_cons.mp hd with rfl | hd
      · exact hlt
      · exact lt_trans hlt (hc.1 d hd)
    · by_cases hr : r = p
      · subst hr
        simpa [PinTable.enter] using hc
      · simp only [PinTable.enter, hlt, hr, if_false]
        refine List.pairwise_cons.mpr ⟨fun d hd => ?_, ih hc.2⟩
        rcases PinTable.mem_enter hd with rfl | hd
        · have hne : r.label ≠ p.label := fun e => hr (by cases r; cases p; simp_all)
          show r.label < p.label
          omega
        · exact hc.1 d hd

/-! ### The table -/

/-- Writing a pin keeps the base of the table. -/
@[simp] theorem PinTable.put_base (t : PinTable) (p : PinId) (x : PinState) : (t.put p x).base = t.base := by
  unfold PinTable.put
  split <;> rfl

/-- Reading after writing, in any table (R54): the pin written reads as written, every other pin as before. -/
theorem PinTable.get_put (t : PinTable) (p q : PinId) (x : PinState) :
    (t.put p x).get q = if q = p then x else t.get q := by
  unfold PinTable.put
  by_cases hx : x = t.base.entry p
  · by_cases hq : q = p
    · subst hq; simp [PinTable.get, PinTable.find_erase, ← hx]
    · simp [PinTable.get, PinTable.find_erase, ← hx, hq]
  · by_cases hq : q = p
    · simp [PinTable.get, PinTable.find_enter, hx, hq]
    · simp [PinTable.get, PinTable.find_enter, hx, hq]

@[simp] theorem PinTable.get_put_self (t : PinTable) (p : PinId) (x : PinState) : (t.put p x).get p = x := by
  simp [PinTable.get_put]

theorem PinTable.get_put_ne (t : PinTable) {p q : PinId} (x : PinState) (h : q ≠ p) :
    (t.put p x).get q = t.get q := by
  simp [PinTable.get_put, h]

/-- The canonical form, as two facts about the entries. -/
theorem PinTable.wf_iff (t : PinTable) :
    t.wf = true ↔ t.entries.Pairwise (fun a b => a.1.label < b.1.label) ∧
      ∀ c ∈ t.entries, c.2 ≠ t.base.entry c.1 := by
  simp [PinTable.wf]

/-- A table that lists nothing is in canonical form: the table of reset is (R232). -/
theorem PinTable.wf_nil (b : PinBase) : PinTable.wf ⟨b, []⟩ = true := rfl

/-- Writing a pin keeps the canonical form. -/
theorem PinTable.put_wf {t : PinTable} (h : t.wf = true) (p : PinId) (x : PinState) : (t.put p x).wf = true := by
  rw [PinTable.wf_iff] at h ⊢
  unfold PinTable.put
  by_cases hx : x = t.base.entry p
  · simp only [if_pos hx]
    have hs := PinTable.erase_sublist t.entries p
    exact ⟨h.1.sublist hs, fun c hc => h.2 c (hs.subset hc)⟩
  · simp only [if_neg hx]
    refine ⟨PinTable.enter_rising h.1 p x, fun c hc => ?_⟩
    rcases PinTable.mem_enter hc with rfl | hc
    · exact hx
    · exact h.2 c hc

/-- A successful call keeps the canonical form (R54). -/
theorem PlatCall.effect_wf {t : PinTable} (h : t.wf = true) (c : PlatCall) : (c.effect t).wf = true := by
  cases c with
  | cfg p c => exact PinTable.put_wf h p c.state
  | write p l => exact PinTable.put_wf h p (.out l)
  | read p => exact h
  | rel p => exact PinTable.put_wf h p .free

/-- A successful call keeps the base of the table. -/
@[simp] theorem PlatCall.effect_base (t : PinTable) (c : PlatCall) : (c.effect t).base = t.base := by
  cases c <;> simp [PlatCall.effect]

end Sys2Proof
end

