-- ==== Sys2Proof/Laws/Ops.lean ====
section
/-!
SUPPORT. One lemma per shared operation that says what it can do: the guards, the platform call, the pin write, the data-in
read, and the admissions.
-/

namespace Sys2Proof.Machine

/-! ### The guards -/

theorem whileRunning_next {s t u : State} : s.whileRunning t = .next u ↔ s.busy ∧ u = t := by
  by_cases h : s.upc.prog = .idle <;> simp [State.whileRunning, h, eq_comm]

theorem whileRunning_of_busy {s : State} (h : s.busy) (t : State) : s.whileRunning t = .next t := by
  simp [State.whileRunning, h]

theorem whileRunning_of_idle {s : State} (h : s.upc.prog = .idle) (t : State) :
    s.whileRunning t = .refused .sequencerIdle := by
  simp [State.whileRunning, h]

theorem whileIdle_next {s t u : State} : s.whileIdle t = .next u ↔ s.upc.prog = .idle ∧ u = t := by
  by_cases h : s.upc.prog = .idle <;> simp [State.whileIdle, h, eq_comm]

theorem whileIdle_of_idle {s : State} (h : s.upc.prog = .idle) (t : State) : s.whileIdle t = .next t := by
  simp [State.whileIdle, h]

theorem whileIdle_of_busy {s : State} (h : s.busy) (t : State) : s.whileIdle t = .refused .commandWhileBusy := by
  simp [State.whileIdle, h]

/-! ### A platform call -/

/-- A call the platform lets succeed (R54). -/
theorem State.call_ok {s : State} {c : PlatCall} (h : s.platformAnswer c = none) (x : PlatErr → Exc)
    (k : State → State) :
    s.call c x k = k { s.answered (c.event s.dinAnswer) with pins := c.effect s.pins } := by
  simp [State.call, h]

/-- A call the platform fails (R55, R132). -/
theorem State.call_fail {s : State} {c : PlatCall} {e : PlatErr} (h : s.platformAnswer c = some e)
    (x : PlatErr → Exc) (k : State → State) :
    s.call c x k = (s.answered (.fail c e)).raise (x e) := by
  simp [State.call, h]

/-- A call either succeeds and goes on, or fails and raises. -/
theorem State.call_cases (s : State) (c : PlatCall) (x : PlatErr → Exc) (k : State → State) :
    (s.platformAnswer c = none ∧
      s.call c x k = k { s.answered (c.event s.dinAnswer) with pins := c.effect s.pins }) ∨
    (∃ e, s.platformAnswer c = some e ∧ s.call c x k = (s.answered (.fail c e)).raise (x e)) := by
  cases h : s.platformAnswer c with
  | none => exact .inl ⟨rfl, State.call_ok h x k⟩
  | some e => exact .inr ⟨e, rfl, State.call_fail h x k⟩

/-- A pin write that succeeds writes the pin table, the trace and `UPC`. -/
theorem State.pinWrite_ok {s : State} {p : PinId} {l : Level} (h : s.platformAnswer (.write p l) = none) :
    s.pinWrite p l = ({ s.answered (.write p l) with pins := s.pins.put p (.out l) } : State).advance :=
  State.call_ok h _ _

/-- A pin write that fails raises PinIOError. -/
theorem State.pinWrite_fail {s : State} {p : PinId} {l : Level} {e : PlatErr}
    (h : s.platformAnswer (.write p l) = some e) :
    s.pinWrite p l = (s.answered (.fail (.write p l) e)).raise (.pinIO e) :=
  State.call_fail h _ _

/-- A data-in read that succeeds hands the level to `k`; the pin table is unchanged. -/
theorem State.pinRead_ok {s : State} (h : s.platformAnswer (.read s.pinDin) = none) (k : Level → State → State) :
    s.pinRead k = (k s.dinAnswer
      { s.answered (.read s.pinDin s.dinAnswer) with dinScript := s.dinScript.tail }).advance :=
  State.call_ok h _ _

/-- A data-in read that fails raises PinIOError and hands nothing on. -/
theorem State.pinRead_fail {s : State} {e : PlatErr} (h : s.platformAnswer (.read s.pinDin) = some e)
    (k : Level → State → State) :
    s.pinRead k = (s.answered (.fail (.read s.pinDin) e)).raise (.pinIO e) :=
  State.call_fail h _ _

/-- A scripted answer comes first. -/
theorem State.platformAnswer_cons {s : State} {a : Option PlatErr} {rest : List (Option PlatErr)}
    (h : s.callScript = a :: rest) (c : PlatCall) : s.platformAnswer c = a := by
  simp [State.platformAnswer, h]

/-- The ideal platform fails only the configuration of a pin that is not Free (R56). -/
theorem State.platformAnswer_ideal {s : State} {e : PlatErr} (h : s.callScript = []) (hp : s.platform = .ideal e)
    (c : PlatCall) : s.platformAnswer c = idealAnswer e c s.pins := by
  simp [State.platformAnswer, h, hp]

/-- A scripted level comes first. -/
theorem State.dinAnswer_cons {s : State} {l : Level} {rest : List Level} (h : s.dinScript = l :: rest) :
    s.dinAnswer = l := by
  simp [State.dinAnswer, h]

/-! ### Admission -/

theorem State.admitInit_uninitialized {s : State} (h : s.lifecycle = .uninitialized) (u : TempUnit)
    {cs clk din : PinId} (hd : pinsDistinct cs clk din) :
    s.admitInit u cs clk din =
      { s.present with unit := u, pinCs := cs, pinClk := clk, pinDin := din, upc := ⟨.initP, 0#6⟩ } := by
  simp [State.admitInit, h, hd]

theorem State.admitInit_notDistinct {s : State} (h : s.lifecycle = .uninitialized) (u : TempUnit)
    {cs clk din : PinId} (hd : ¬ pinsDistinct cs clk din) :
    s.admitInit u cs clk din =
      ({ s.present with unit := u, pinCs := cs, pinClk := clk, pinDin := din } : State).raise .pinNotDistinct := by
  simp only [State.admitInit, h, ne_eq, not_true_eq_false, if_false, if_neg hd]

theorem State.admitInit_invalid {s : State} (h : s.lifecycle ≠ .uninitialized) (u : TempUnit) (cs clk din : PinId) :
    s.admitInit u cs clk din = s.present.raise .invalidState := by
  simp [State.admitInit, h]

theorem State.admitRead_ready {s : State} (h : s.lifecycle = .ready) :
    s.admitRead = { s.present with upc := ⟨.readP, 0#6⟩, readNo := s.readNo + 1 } := by
  simp [State.admitRead, h]

theorem State.admitRead_invalid {s : State} (h : s.lifecycle ≠ .ready) :
    s.admitRead = s.present.raise .invalidState := by
  simp [State.admitRead, h]

end Sys2Proof.Machine
end

