-- ==== Sys2Proof/Laws/PerInstr.lean ====
section
/-!
SUPPORT. One statement about every instruction as syntax: its encoding fits its row of spec/opcode_table.json (the format,
and the match under the mask), with one lemma per constructor.
-/

namespace Sys2Proof.Laws.TableRow

/-- The row's format (H is true), match and mask. -/
def row : Instr → Bool × Byte × Byte
  | .initRaw _ _ _ => (true, 0x00#8, 0xFF#8)
  | .initC _ _ _ => (true, 0x10#8, 0xFF#8)
  | .initF _ _ _ => (true, 0x20#8, 0xFF#8)
  | .read => (true, 0x40#8, 0xFF#8)
  | .teardown => (true, 0x80#8, 0xFF#8)
  | .csl => (false, 0x10#8, 0xFF#8)
  | .csh => (false, 0x11#8, 0xFF#8)
  | .ckl => (false, 0x20#8, 0xFF#8)
  | .ckh => (false, 0x21#8, 0xFF#8)
  | .smpd _ => (false, 0x30#8, 0xF0#8)
  | .smpf => (false, 0x40#8, 0xFF#8)
  | .wait _ => (false, 0x50#8, 0xFC#8)
  | .clr => (false, 0x60#8, 0xFF#8)
  | .conv => (false, 0x70#8, 0xFF#8)
  | .cfg _ _ _ => (false, 0x80#8, 0xF0#8)
  | .rel _ => (false, 0x90#8, 0xFC#8)
  | .rdy => (false, 0xA0#8, 0xFF#8)
  | .rls => (false, 0xB0#8, 0xFF#8)

/-- Whether an encoding is in format H. -/
def inFormatH : Code → Bool
  | .command _ => true
  | .micro _ => false

/-- The instruction's encoding is in its row's format and matches its row's bits. -/
def Statement (i : Instr) : Prop :=
  inFormatH (encode i) = (row i).1 ∧ (encode i).word &&& (row i).2.2 = (row i).2.1

theorem initRaw (cs clk din : PinId) : Statement (.initRaw cs clk din) :=
  ⟨rfl, by simp only [encode, Code.word, row]; decide⟩
theorem initC (cs clk din : PinId) : Statement (.initC cs clk din) :=
  ⟨rfl, by simp only [encode, Code.word, row]; decide⟩
theorem initF (cs clk din : PinId) : Statement (.initF cs clk din) :=
  ⟨rfl, by simp only [encode, Code.word, row]; decide⟩
theorem read : Statement .read := ⟨rfl, rfl⟩
theorem teardown : Statement .teardown := ⟨rfl, rfl⟩
theorem csl : Statement .csl := ⟨rfl, rfl⟩
theorem csh : Statement .csh := ⟨rfl, rfl⟩
theorem ckl : Statement .ckl := ⟨rfl, rfl⟩
theorem ckh : Statement .ckh := ⟨rfl, rfl⟩
theorem smpd (i : Fin 12) : Statement (.smpd i) := ⟨rfl, by revert i; decide⟩
theorem smpf : Statement .smpf := ⟨rfl, rfl⟩
theorem wait (k : DelayKind) : Statement (.wait k) := ⟨rfl, by cases k <;> decide⟩
theorem clr : Statement .clr := ⟨rfl, rfl⟩
theorem conv : Statement .conv := ⟨rfl, rfl⟩
theorem cfg (r : Role) (d : Dir) (l : Level) : Statement (.cfg r d l) :=
  ⟨rfl, by cases r <;> cases d <;> cases l <;> decide⟩
theorem rel (r : Role) : Statement (.rel r) := ⟨rfl, by cases r <;> decide⟩
theorem rdy : Statement .rdy := ⟨rfl, rfl⟩
theorem rls : Statement .rls := ⟨rfl, rfl⟩

end Sys2Proof.Laws.TableRow
end

