-- ==== Sys2Proof/Laws/Rom.lean ====
section
/-!
SUPPORT. What the sequencer fetches: each micro-program as a list of instructions, and what `fetch` and `step` do with it.
-/

namespace Sys2Proof.Machine

/-- A micro-program as instructions (R150 to R152, with the pseudo-instructions of R100). -/
def programInstrs : Prog → List Instr
  | .idle => []
  | .initP => [.cfg .cs .out .high, .cfg .clk .out .low, .cfg .din .inp .low, .rdy]
  | .readP => .clr :: pseudoWake ++ [.csl] ++ pseudoPulse
      ++ ([11, 10, 9, 8, 7, 6, 5, 4, 3, 2, 1, 0] : List (Fin 12)).flatMap pseudoSample
      ++ pseudoSampleF ++ pseudoPulseH ++ pseudoPulseH ++ [.csh, .conv]
  | .tdP => [.rel .cs, .rel .clk, .rel .din, .rls]

/-- The ROM bytes decode to the micro-programs. -/
theorem rom_decodes (p : Prog) : (rom p).map decodeU = (programInstrs p).map .ok := by
  cases p <;> decide

theorem rom_length (p : Prog) : (rom p).length = (programInstrs p).length := by
  cases p <;> decide

/-- The ROM word at a position decodes to the instruction at that position. -/
theorem romWord_decodes (u : Upc) :
    (romWord u).map decodeU = ((programInstrs u.prog)[u.idx.toNat]?).map .ok := by
  rw [romWord, ← List.getElem?_map, rom_decodes, List.getElem?_map]

/-- The ROM gives the instruction of its micro-program at `idx`, or finds no entry. -/
theorem fetchMicro_eq (u : Upc) :
    fetchMicro u = match (programInstrs u.prog)[u.idx.toNat]? with
      | some i => .micro i
      | none => .noEntry := by
  have hd := romWord_decodes u
  unfold fetchMicro
  cases hw : romWord u <;> cases ho : (programInstrs u.prog)[u.idx.toNat]? <;>
    simp only [hw, ho, Option.map_some, Option.map_none, Option.some.injEq, reduceCtorEq] at hd <;> simp [hd]

/-- While a micro-program runs, `fetch` gives its instruction at `idx`, or finds no entry. -/
theorem fetch_busy {s : State} (h : s.busy) :
    fetch s = match (programInstrs s.upc.prog)[s.upc.idx.toNat]? with
      | some i => .micro i
      | none => .noEntry := by
  rw [fetch, if_neg h, fetchMicro_eq]

/-- While a micro-program runs, `step` executes its instruction at `idx`. -/
theorem step_busy {s : State} (h : s.busy) {i : Instr}
    (hi : (programInstrs s.upc.prog)[s.upc.idx.toNat]? = some i) : step s = exec i s := by
  simp [step, fetch_busy h, hi]

/-- A `UPC` that names no entry of its micro-program has no step (R24; log 16). -/
theorem step_noEntry {s : State} (h : s.busy) (hi : (programInstrs s.upc.prog)[s.upc.idx.toNat]? = none) :
    step s = .refused .noRomEntry := by
  simp [step, fetch_busy h, hi]

/-- A step while a micro-program runs that answers a next state executed one of its instructions. -/
theorem step_busy_next {s t : State} (h : s.busy) (ht : step s = .next t) :
    ∃ i, (programInstrs s.upc.prog)[s.upc.idx.toNat]? = some i ∧ exec i s = .next t := by
  rw [step, fetch_busy h] at ht
  cases hi : (programInstrs s.upc.prog)[s.upc.idx.toNat]? with
  | none => rw [hi] at ht; cases ht
  | some i => rw [hi] at ht; exact ⟨i, rfl, ht⟩

/-- While idle with nothing presented, a step changes nothing (R231). -/
theorem step_waiting {s : State} (h : s.upc.prog = .idle) (hh : s.hostProgram = []) : step s = .next s := by
  simp [step, fetch, fetchCommand, h, hh]

/-- While idle, a step executes the command the host presents (R110). -/
theorem step_command {s : State} (h : s.upc.prog = .idle) {c : HostCmd} {rest : List HostCmd}
    (hh : s.hostProgram = c :: rest) {i : Instr} (hi : decodeH c = .ok i) :
    step s = exec i { s with hostProgram := rest } := by
  simp [step, fetch, fetchCommand, h, hh, hi]

/-- While idle, a reserved word is IllegalCommand (R204). -/
theorem step_reserved {s : State} (h : s.upc.prog = .idle) {c : HostCmd} {rest : List HostCmd}
    (hh : s.hostProgram = c :: rest) {e : DecodeError} (he : decodeH c = .error e) :
    step s = .next ({ s with hostProgram := rest } : State).admitReserved := by
  simp [step, fetch, fetchCommand, h, hh, he]

/-- Every step that answers a next state is one of four: waiting, an admitted command, a reserved word, or a
micro-operation of the ROM. -/
theorem step_cases {s t : State} (ht : step s = .next t) :
    (s.upc.prog = .idle ∧ s.hostProgram = [] ∧ t = s) ∨
    (∃ c rest i, s.upc.prog = .idle ∧ s.hostProgram = c :: rest ∧ decodeH c = .ok i ∧
      exec i { s with hostProgram := rest } = .next t) ∨
    (∃ c rest e, s.upc.prog = .idle ∧ s.hostProgram = c :: rest ∧ decodeH c = .error e ∧
      t = ({ s with hostProgram := rest } : State).admitReserved) ∨
    (∃ i, s.busy ∧ (programInstrs s.upc.prog)[s.upc.idx.toNat]? = some i ∧ exec i s = .next t) := by
  by_cases h : s.upc.prog = .idle
  · cases hh : s.hostProgram with
    | nil =>
      rw [step_waiting h hh] at ht
      cases ht
      exact .inl ⟨h, rfl, rfl⟩
    | cons c rest =>
      cases hd : decodeH c with
      | ok i =>
        rw [step_command h hh hd] at ht
        exact .inr (.inl ⟨c, rest, i, h, rfl, hd, ht⟩)
      | error e =>
        rw [step_reserved h hh hd] at ht
        cases ht
        exact .inr (.inr (.inl ⟨c, rest, e, h, rfl, hd, rfl⟩))
  · obtain ⟨i, hi, hx⟩ := step_busy_next h ht
    exact .inr (.inr (.inr ⟨i, h, hi, hx⟩))

end Sys2Proof.Machine
end

