-- ==== Sys2Proof/Laws/Step.lean ====
section
/-!
SUPPORT. What one step can do, said once: the result of a micro-operation (41_sequencer.md R132 to R146, 42_deserializer.md
R160 to R162, 43_converter.md R180), the result of an admission (40_host_commands.md R110), and so of a step.
-/

namespace Sys2Proof.Machine

/-! ### Micro-operations -/

/-- The platform call a micro-operation makes, if it makes one. -/
def microCall (s : State) : Instr → Option PlatCall
  | .csl => some (.write s.pinCs .low)
  | .csh => some (.write s.pinCs .high)
  | .ckl => some (.write s.pinClk .low)
  | .ckh => some (.write s.pinClk .high)
  | .smpd _ | .smpf => some (.read s.pinDin)
  | .cfg r d l => some (.cfg (s.pin r) (setupOf d l))
  | .rel r => some (.rel (s.pin r))
  | .initRaw _ _ _ | .initC _ _ _ | .initF _ _ _ | .read | .teardown => none
  | .wait _ | .clr | .conv | .rdy | .rls => none

/-- The exception a micro-operation raises when its platform call fails with `e` (R132). -/
def failureOf (e : PlatErr) : Instr → Exc
  | .cfg r _ _ => .pinConfig r e
  | _ => .pinIO e

/-- RAW after a successful platform call of a micro-operation. -/
def rawAfter (s : State) : Instr → BitVec 12
  | .smpd k => setRawBit s.raw k s.dinAnswer
  | _ => s.raw

/-- FAULT after a successful platform call of a micro-operation. -/
def faultAfter (s : State) : Instr → BitVec 1
  | .smpf => s.dinAnswer.bit
  | _ => s.fault

/-- The scripted levels left after a successful platform call of a micro-operation. -/
def dinScriptAfter (s : State) : Instr → List Level
  | .smpd _ | .smpf => s.dinScript.tail
  | _ => s.dinScript

/-- Everything a micro-operation can lead to. -/
inductive MicroResult (i : Instr) (s t : State) : Prop
  | failed (c : PlatCall) (e : PlatErr) (hc : microCall s i = some c) (ha : s.platformAnswer c = some e)
      (ht : t = (s.answered (.fail c e)).raise (failureOf e i))
  | called (c : PlatCall) (hc : microCall s i = some c) (ha : s.platformAnswer c = none)
      (ht : t = { afterCall s (c.event s.dinAnswer) (c.effect s.pins) with
        raw := rawAfter s i, fault := faultAfter s i, dinScript := dinScriptAfter s i })
  | waited (k : DelayKind) (hi : i = .wait k) (ht : t = (s.delay k).advance)
  | cleared (hi : i = .clr) (ht : t = ({ s with raw := 0#12, fault := 0#1 } : State).advance)
  | ready (hi : i = .rdy) (ht : t = ({ s with lifecycle := .ready } : State).respond .ok)
  | released (hi : i = .rls) (ht : t = ({ s with lifecycle := .released } : State).respond .ok)
  | faulted (hi : i = .conv) (hf : s.fault = 1#1) (ht : t = s.respond .fault)
  | converted (hi : i = .conv) (hf : s.fault ≠ 1#1) (ht : t = s.respond (.value (scaledValue s.unit s.raw)))

/-- A pin write, a configuration or a release is a `MicroResult`. -/
theorem MicroResult.of_call {i : Instr} {s : State} {c : PlatCall} (hc : microCall s i = some c)
    (hr : rawAfter s i = s.raw) (hf : faultAfter s i = s.fault) (hd : dinScriptAfter s i = s.dinScript) :
    MicroResult i s (s.call c (failureOf · i) State.advance) := by
  rcases State.call_cases s c (failureOf · i) State.advance with ⟨ha, h⟩ | ⟨e, ha, h⟩
  · refine .called c hc ha ?_
    rw [h, hr, hf, hd]
    rfl
  · exact .failed c e hc ha h

/-- While a micro-program runs, an instruction that answers a next state is a micro-operation, with its result. -/
theorem exec_busy_inversion {i : Instr} {s t : State} (hb : s.busy) (h : exec i s = .next t) :
    MicroResult i s t := by
  cases i with
  | initRaw a b c => rw [exec, execInitRaw, whileIdle_of_busy hb] at h; cases h
  | initC a b c => rw [exec, execInitC, whileIdle_of_busy hb] at h; cases h
  | initF a b c => rw [exec, execInitF, whileIdle_of_busy hb] at h; cases h
  | read => rw [exec, execRead, whileIdle_of_busy hb] at h; cases h
  | teardown => rw [exec, execTeardown, whileIdle_of_busy hb] at h; cases h
  | csl => rw [exec, execCsl, whileRunning_of_busy hb] at h; cases h; exact .of_call rfl rfl rfl rfl
  | csh => rw [exec, execCsh, whileRunning_of_busy hb] at h; cases h; exact .of_call rfl rfl rfl rfl
  | ckl => rw [exec, execCkl, whileRunning_of_busy hb] at h; cases h; exact .of_call rfl rfl rfl rfl
  | ckh => rw [exec, execCkh, whileRunning_of_busy hb] at h; cases h; exact .of_call rfl rfl rfl rfl
  | smpd k =>
    rw [exec, execSmpd, whileRunning_of_busy hb] at h
    cases h
    cases ha : s.platformAnswer (.read s.pinDin) with
    | none => rw [State.pinRead_ok ha]; exact .called _ rfl ha rfl
    | some e => rw [State.pinRead_fail ha]; exact .failed _ e rfl ha rfl
  | smpf =>
    rw [exec, execSmpf, whileRunning_of_busy hb] at h
    cases h
    cases ha : s.platformAnswer (.read s.pinDin) with
    | none => rw [State.pinRead_ok ha]; exact .called _ rfl ha rfl
    | some e => rw [State.pinRead_fail ha]; exact .failed _ e rfl ha rfl
  | wait k => rw [exec, execWait, whileRunning_of_busy hb] at h; cases h; exact .waited k rfl rfl
  | clr => rw [exec, execClr, whileRunning_of_busy hb] at h; cases h; exact .cleared rfl rfl
  | conv =>
    rw [exec, execConv, whileRunning_of_busy hb] at h
    cases h
    split
    · exact .faulted rfl ‹_› rfl
    · exact .converted rfl ‹_› rfl
  | cfg r d l =>
    rw [exec, execCfg] at h
    split at h
    · cases h
    · rw [whileRunning_of_busy hb] at h; cases h; exact .of_call rfl rfl rfl rfl
  | rel r => rw [exec, execRel, whileRunning_of_busy hb] at h; cases h; exact .of_call rfl rfl rfl rfl
  | rdy => rw [exec, execRdy, whileRunning_of_busy hb] at h; cases h; exact .ready rfl rfl
  | rls => rw [exec, execRls, whileRunning_of_busy hb] at h; cases h; exact .released rfl rfl

/-! ### Admission -/

/-- Everything the admission of a command can lead to (R110). -/
inductive AdmissionResult (s t : State) : Prop
  | invalidState (ht : t = s.present.raise .invalidState)
  | illegalCommand (ht : t = s.present.raise .illegalCommand)
  | alreadyReleased (hl : s.lifecycle = .released) (ht : t = s.present.respond .ok)
  | notDistinct (u : TempUnit) (cs clk din : PinId) (hl : s.lifecycle = .uninitialized)
      (ht : t = ({ s.present with unit := u, pinCs := cs, pinClk := clk, pinDin := din } : State).raise .pinNotDistinct)
  | startInit (u : TempUnit) (cs clk din : PinId) (hl : s.lifecycle = .uninitialized)
      (hd : pinsDistinct cs clk din)
      (ht : t = { s.present with unit := u, pinCs := cs, pinClk := clk, pinDin := din, upc := ⟨.initP, 0#6⟩ })
  | startRead (hl : s.lifecycle = .ready)
      (ht : t = { s.present with upc := ⟨.readP, 0#6⟩, readNo := s.readNo + 1 })
  | startTeardown (hl : s.lifecycle = .ready) (ht : t = { s.present with upc := ⟨.tdP, 0#6⟩ })

theorem admitInit_inversion (s : State) (u : TempUnit) (cs clk din : PinId) :
    AdmissionResult s (s.admitInit u cs clk din) := by
  by_cases hl : s.lifecycle = .uninitialized
  · by_cases hd : pinsDistinct cs clk din
    · exact .startInit u cs clk din hl hd (State.admitInit_uninitialized hl u hd)
    · exact .notDistinct u cs clk din hl (State.admitInit_notDistinct hl u hd)
  · exact .invalidState (State.admitInit_invalid hl u cs clk din)

theorem admitRead_inversion (s : State) : AdmissionResult s s.admitRead := by
  by_cases hl : s.lifecycle = .ready
  · exact .startRead hl (State.admitRead_ready hl)
  · exact .invalidState (State.admitRead_invalid hl)

theorem admitTeardown_inversion (s : State) : AdmissionResult s s.admitTeardown := by
  unfold State.admitTeardown
  cases hl : s.lifecycle
  · exact .invalidState rfl
  · exact .startTeardown hl rfl
  · exact .alreadyReleased hl rfl

/-- A host command executed while the sequencer is idle is admitted. -/
theorem exec_command_inversion {op : HostOp} {c : HostCmd} {s t : State} (hi : s.upc.prog = .idle)
    (h : exec (hostInstr op c) s = .next t) : AdmissionResult s t := by
  rcases op with (_ | _ | _) | _ | _ <;>
    simp only [hostInstr, exec, execInitRaw, execInitC, execInitF, execRead, execTeardown,
      whileIdle_of_idle hi] at h <;> cases h
  · exact admitInit_inversion s _ _ _ _
  · exact admitInit_inversion s _ _ _ _
  · exact admitInit_inversion s _ _ _ _
  · exact admitRead_inversion s
  · exact admitTeardown_inversion s

/-! ### A step -/

/-- Every step that answers a next state waits, admits the command the host presents, or performs the micro-operation at
`UPC`. -/
theorem step_inversion {s t : State} (h : step s = .next t) :
    (s.upc.prog = .idle ∧ t = s) ∨
    (s.upc.prog = .idle ∧ ∃ rest, AdmissionResult { s with hostProgram := rest } t) ∨
    (s.busy ∧ ∃ i, (programInstrs s.upc.prog)[s.upc.idx.toNat]? = some i ∧ MicroResult i s t) := by
  rcases step_cases h with ⟨hi, _, ht⟩ | ⟨c, rest, i, hi, _, hd, hx⟩ | ⟨c, rest, e, hi, _, _, ht⟩ | ⟨i, hb, hi, hx⟩
  · exact .inl ⟨hi, ht⟩
  · refine .inr (.inl ⟨hi, rest, ?_⟩)
    rw [decodeH] at hd
    split at hd
    · cases hd
      exact exec_command_inversion (s := { s with hostProgram := rest }) hi hx
    · cases hd
  · exact .inr (.inl ⟨hi, rest, .illegalCommand ht⟩)
  · exact .inr (.inr ⟨hb, i, hi, exec_busy_inversion hb hx⟩)

/-! ### Where the instructions stand -/

theorem rdy_only_in_initP {p : Prog} : Instr.rdy ∈ programInstrs p → p = .initP := by cases p <;> decide

theorem rls_only_in_tdP {p : Prog} : Instr.rls ∈ programInstrs p → p = .tdP := by cases p <;> decide

theorem conv_only_in_readP {p : Prog} : Instr.conv ∈ programInstrs p → p = .readP := by cases p <;> decide

theorem cfg_only_in_initP {p : Prog} {r : Role} {d : Dir} {l : Level} :
    Instr.cfg r d l ∈ programInstrs p → p = .initP := by
  cases p <;> cases r <;> cases d <;> cases l <;> decide

theorem rel_only_in_tdP {p : Prog} {r : Role} : Instr.rel r ∈ programInstrs p → p = .tdP := by
  cases p <;> cases r <;> decide

/-- The instructions that end a command with a response. -/
def endsCommand : Instr → Bool
  | .rdy | .rls | .conv => true
  | _ => false

/-- An instruction of a micro-program ends the command exactly if it is the last one. -/
theorem endsCommand_iff_last (p : Prog) : ∀ n < (programInstrs p).length,
    ((programInstrs p)[n]?).map endsCommand = some (decide (n + 1 = (programInstrs p).length)) := by
  cases p <;> decide

theorem programInstrs_length_lt (p : Prog) : (programInstrs p).length < 60 := by cases p <;> decide

/-- `UPC.idx + 1` does not wrap within a micro-program. -/
theorem idx_succ {x : BitVec 6} (h : x.toNat < 63) : (x + 1).toNat = x.toNat + 1 := by
  simp [BitVec.toNat_add]
  omega

/-! ### The command level -/

/-- An idle sequencer has nothing left to run. -/
theorem runToIdle_of_idle {s : State} (h : s.upc.prog = .idle) (k : Nat) : runToIdle k s = .next s := by
  cases k <;> simp [runToIdle, h]

/-- A running sequencer takes its step and runs on. -/
theorem runToIdle_of_step {s t : State} (h : s.busy) (ht : step s = .next t) (k : Nat) :
    runToIdle (k + 1) s = runToIdle k t := by
  simp [runToIdle, h, ht]

/-- A running sequencer executes the instruction at `UPC` and runs on: the way to follow a micro-program entry by entry. -/
theorem runToIdle_of_micro {s t : State} {i : Instr} (h : s.busy)
    (hi : (programInstrs s.upc.prog)[s.upc.idx.toNat]? = some i) (hx : exec i s = .next t) (k : Nat) :
    runToIdle (k + 1) s = runToIdle k t :=
  runToIdle_of_step h ((step_busy h hi).trans hx) k

/-- A command presented to an idle controller is admitted, with the port as before, and then runs (R110, R131). -/
theorem runCommand_of_admission {s t : State} {c : HostCmd} {i : Instr} (h : s.upc.prog = .idle)
    (hd : decodeH c = .ok i) (hx : exec i s = .next t) : runCommand c s = runToIdle 55 t := by
  have hs : step { s with hostProgram := c :: s.hostProgram } = exec i s :=
    step_command (s := { s with hostProgram := c :: s.hostProgram }) h rfl hd
  rw [runCommand, if_pos h, hs, hx]

/-- A reserved word is answered at admission (R204). -/
theorem runCommand_of_reserved {s : State} {c : HostCmd} {e : DecodeError} (h : s.upc.prog = .idle)
    (hd : decodeH c = .error e) : runCommand c s = .next s.admitReserved := by
  have hs : step { s with hostProgram := c :: s.hostProgram } = .next s.admitReserved :=
    step_reserved (s := { s with hostProgram := c :: s.hostProgram }) h rfl hd
  rw [runCommand, if_pos h, hs]
  exact runToIdle_of_idle rfl 55

/-- While a micro-program runs, a command has no run (R11, R70; log 15). -/
theorem runCommand_of_busy {s : State} (h : s.busy) (c : HostCmd) : runCommand c s = .refused .commandWhileBusy :=
  if_neg h

/-! ### A further run -/

/-- Starting a further run starts one from an idle controller, with everything but the environment as after reset, or is
refused in the middle of a command (R230, R233). -/
theorem State.restart_cases (s : State) :
    (s.upc.prog = .idle ∧ s.restart = .next { State.reset with
      pins := s.pins, callScript := s.callScript, platform := s.platform, dinScript := s.dinScript
      sensor := s.sensor, hostProgram := s.hostProgram, draws := s.draws, readNo := s.readNo }) ∨
    (s.busy ∧ s.restart = .refused .resetWhileBusy) := by
  by_cases h : s.upc.prog = .idle
  · exact .inl ⟨h, if_pos h⟩
  · exact .inr ⟨h, if_neg h⟩

/-! ### The bits of RAW -/

/-- `SMPD i` sets bit `i` and keeps every other bit (R93, R161). -/
theorem setRawBit_get (raw : BitVec 12) (i j : Fin 12) (b : Level) :
    (setRawBit raw i b).getLsbD j.val = if j = i then decide (b = .high) else raw.getLsbD j.val := by
  have hj := j.isLt
  have e : (1#12 <<< i.val).getLsbD j.val = decide (j = i) := by
    rw [BitVec.getLsbD_shiftLeft]
    by_cases h : j = i
    · subst h; simp
    · have : j.val ≠ i.val := fun hh => h (Fin.ext hh)
      simp [h]
      omega
  cases b <;> by_cases h : j = i
  · subst h; simp only [setRawBit, BitVec.getLsbD_and, BitVec.getLsbD_not, e]; simp
  · simp only [setRawBit, BitVec.getLsbD_and, BitVec.getLsbD_not, e, h, hj]; simp
  · subst h; simp only [setRawBit, BitVec.getLsbD_or, e]; simp
  · simp only [setRawBit, BitVec.getLsbD_or, e, h]; simp

end Sys2Proof.Machine
end

