-- ==== Sys2Proof/Laws/Run.lean ====
section
/-!
SUPPORT. Running a micro-program entry by entry (41_sequencer.md R131, R132): what a micro-operation with an event does,
and where a run of such micro-operations ends, for whatever the platform answers.
-/

namespace Sys2Proof.Machine

/-! ### An event performed -/

@[simp] theorem State.performed_lifecycle (s : State) (ev : Event) : (s.performed ev).lifecycle = s.lifecycle := by
  unfold State.performed; split <;> rfl
@[simp] theorem State.performed_unit (s : State) (ev : Event) : (s.performed ev).unit = s.unit := by
  unfold State.performed; split <;> rfl
@[simp] theorem State.performed_pinCs (s : State) (ev : Event) : (s.performed ev).pinCs = s.pinCs := by
  unfold State.performed; split <;> rfl
@[simp] theorem State.performed_pinClk (s : State) (ev : Event) : (s.performed ev).pinClk = s.pinClk := by
  unfold State.performed; split <;> rfl
@[simp] theorem State.performed_pinDin (s : State) (ev : Event) : (s.performed ev).pinDin = s.pinDin := by
  unfold State.performed; split <;> rfl
@[simp] theorem State.performed_raw (s : State) (ev : Event) : (s.performed ev).raw = s.raw := by
  unfold State.performed; split <;> rfl
@[simp] theorem State.performed_fault (s : State) (ev : Event) : (s.performed ev).fault = s.fault := by
  unfold State.performed; split <;> rfl
@[simp] theorem State.performed_upc (s : State) (ev : Event) : (s.performed ev).upc = s.upc := by
  unfold State.performed; split <;> rfl
@[simp] theorem State.performed_resp (s : State) (ev : Event) : (s.performed ev).resp = s.resp := by
  unfold State.performed; split <;> rfl
@[simp] theorem State.performed_respInfo (s : State) (ev : Event) : (s.performed ev).respInfo = s.respInfo := by
  unfold State.performed; split <;> rfl
@[simp] theorem State.performed_respValid (s : State) (ev : Event) : (s.performed ev).respValid = s.respValid := by
  unfold State.performed; split <;> rfl
@[simp] theorem State.performed_trace (s : State) (ev : Event) : (s.performed ev).trace = s.trace ++ [ev] := by
  unfold State.performed; split <;> rfl
@[simp] theorem State.performed_platform (s : State) (ev : Event) : (s.performed ev).platform = s.platform := by
  unfold State.performed; split <;> rfl
@[simp] theorem State.performed_sensor (s : State) (ev : Event) : (s.performed ev).sensor = s.sensor := by
  unfold State.performed; split <;> rfl
@[simp] theorem State.performed_hostProgram (s : State) (ev : Event) :
    (s.performed ev).hostProgram = s.hostProgram := by
  unfold State.performed; split <;> rfl
@[simp] theorem State.performed_readNo (s : State) (ev : Event) : (s.performed ev).readNo = s.readNo := by
  unfold State.performed; split <;> rfl

theorem State.performed_pins (s : State) (ev : Event) :
    (s.performed ev).pins = match callOf ev with | some c => c.effect s.pins | none => s.pins := by
  unfold State.performed; split <;> simp_all

theorem State.performedAll_cons (s : State) (ev : Event) (evs : List Event) :
    s.performedAll (ev :: evs) = (s.performed ev).performedAll evs := rfl

theorem State.performedAll_append (s : State) (evs more : List Event) :
    s.performedAll (evs ++ more) = (s.performedAll evs).performedAll more := List.foldl_append

/-! ### The environment -/

/-- Two states to which the platform answers the same. -/
structure SamePlatform (s u : State) : Prop where
  trace : s.trace = u.trace
  pins : s.pins = u.pins
  callScript : s.callScript = u.callScript
  platform : s.platform = u.platform
  draws : s.draws = u.draws

/-- Two states to which platform and sensor answer the same. -/
structure SameEnvironment (s u : State) : Prop extends SamePlatform s u where
  dinScript : s.dinScript = u.dinScript
  sensor : s.sensor = u.sensor
  readNo : s.readNo = u.readNo
  pinCs : s.pinCs = u.pinCs
  pinClk : s.pinClk = u.pinClk

theorem SamePlatform.answer {s u : State} (h : SamePlatform s u) (c : PlatCall) :
    s.platformAnswer c = u.platformAnswer c := by
  simp only [State.platformAnswer, h.trace, h.pins, h.callScript, h.platform, h.draws]

theorem SameEnvironment.level {s u : State} (h : SameEnvironment s u) : s.dinAnswer = u.dinAnswer := by
  simp only [State.dinAnswer, h.trace, h.draws, h.dinScript, h.sensor, h.readNo, h.pinCs, h.pinClk]

theorem SamePlatform.performed {s u : State} (h : SamePlatform s u) (ev : Event) :
    SamePlatform (s.performed ev) (u.performed ev) := by
  unfold State.performed
  split
  · exact ⟨by simp [h.trace], by simp [h.pins], by simp [h.callScript], h.platform, by simp [h.draws]⟩
  · exact ⟨by simp [h.trace], h.pins, h.callScript, h.platform, h.draws⟩

theorem SameEnvironment.performed {s u : State} (h : SameEnvironment s u) (ev : Event) :
    SameEnvironment (s.performed ev) (u.performed ev) where
  toSamePlatform := h.toSamePlatform.performed ev
  dinScript := by unfold State.performed; split <;> simp [h.dinScript]
  sensor := by simp [h.sensor]
  readNo := by simp [h.readNo]
  pinCs := by simp [h.pinCs]
  pinClk := by simp [h.pinClk]

theorem SamePlatform.performedAll {s u : State} (h : SamePlatform s u) (evs : List Event) :
    SamePlatform (s.performedAll evs) (u.performedAll evs) := by
  induction evs generalizing s u with
  | nil => exact h
  | cons ev rest ih => exact ih (h.performed ev)

/-- Which event fails first depends on the platform's answers alone. -/
theorem SamePlatform.firstFailure {s u : State} (h : SamePlatform s u) (evs : List Event) :
    firstFailure s evs = firstFailure u evs := by
  induction evs generalizing s u with
  | nil => rfl
  | cons ev rest ih =>
    simp only [Machine.firstFailure, h.answer, ih (h.performed ev)]

/-- Whether the reads among the events yield the levels there are depends on the environment alone. -/
theorem SameEnvironment.sensed {s u : State} (h : SameEnvironment s u) {evs : List Event} :
    Sensed s evs ↔ Sensed u evs := by
  induction evs generalizing s u with
  | nil => exact Iff.rfl
  | cons ev rest ih => simp only [Sensed, h.level, ih (h.performed ev)]

/-! ### A micro-operation with an event -/

/-- The event a micro-operation appends when its call succeeds, or when it has none to make. -/
def microEvent (s : State) : Instr → Option Event
  | .wait k => some (.wait k)
  | i => (microCall s i).map fun c => c.event s.dinAnswer

/-- The state after a micro-operation with an event: the event performed, RAW and FAULT written if it samples, the
sequencer advanced. -/
def State.afterMicro (s : State) (i : Instr) (ev : Event) : State :=
  { s.performed ev with raw := rawAfter s i, fault := faultAfter s i, upc := ⟨s.upc.prog, s.upc.idx + 1⟩ }

theorem callOf_event (c : PlatCall) (l : Level) : callOf (c.event l) = some c := by cases c <;> rfl

/-- Recording the event and advancing leaves the environment as performing the event does. -/
theorem State.afterMicro_sameEnvironment (s : State) (i : Instr) (ev : Event) :
    SameEnvironment (s.afterMicro i ev) (s.performed ev) :=
  ⟨⟨rfl, rfl, rfl, rfl, rfl⟩, rfl, rfl, rfl, rfl, rfl⟩

/-- A micro-operation whose call the platform lets succeed, or that makes none, performs its event. -/
theorem exec_performs {s : State} {i : Instr} {ev : Event} (hb : s.busy) (hw : WellFormed i)
    (hm : microEvent s i = some ev) (ha : ∀ c, callOf ev = some c → s.platformAnswer c = none) :
    exec i s = .next (s.afterMicro i ev) := by
  cases i <;> simp only [microEvent, microCall, Option.map_some, Option.map_none, Option.some.injEq,
    reduceCtorEq] at hm <;> subst hm
  case csl => rw [exec, execCsl, whileRunning_of_busy hb, State.pinWrite_ok (ha _ rfl)]; rfl
  case csh => rw [exec, execCsh, whileRunning_of_busy hb, State.pinWrite_ok (ha _ rfl)]; rfl
  case ckl => rw [exec, execCkl, whileRunning_of_busy hb, State.pinWrite_ok (ha _ rfl)]; rfl
  case ckh => rw [exec, execCkh, whileRunning_of_busy hb, State.pinWrite_ok (ha _ rfl)]; rfl
  case smpd k => rw [exec, execSmpd, whileRunning_of_busy hb, State.pinRead_ok (ha _ rfl)]; rfl
  case smpf => rw [exec, execSmpf, whileRunning_of_busy hb, State.pinRead_ok (ha _ rfl)]; rfl
  case wait k => rw [exec, execWait, whileRunning_of_busy hb]; rfl
  case cfg r d l =>
    have hn : ¬ (d = .inp ∧ l = .high) := by
      rintro ⟨rfl, rfl⟩
      exact absurd hw (by simp [WellFormed, Instr.wellFormed])
    rw [exec, execCfg, if_neg hn, whileRunning_of_busy hb, State.call_ok (ha _ rfl)]
    rfl
  case rel r => rw [exec, execRel, whileRunning_of_busy hb, State.call_ok (ha _ rfl)]; rfl

/-- A micro-operation whose call the platform fails raises its exception (R132). -/
theorem exec_raises {s : State} {i : Instr} {ev : Event} {c : PlatCall} {e : PlatErr} (hb : s.busy)
    (hw : WellFormed i) (hm : microEvent s i = some ev) (hc : callOf ev = some c)
    (ha : s.platformAnswer c = some e) :
    exec i s = .next ((s.answered (.fail c e)).raise (failureOf e i)) := by
  cases i <;> simp only [microEvent, microCall, Option.map_some, Option.map_none, Option.some.injEq,
    reduceCtorEq] at hm <;> subst hm <;> simp only [callOf, PlatCall.event, Option.some.injEq, reduceCtorEq] at hc <;>
    subst hc
  case csl => rw [exec, execCsl, whileRunning_of_busy hb, State.pinWrite_fail ha]; rfl
  case csh => rw [exec, execCsh, whileRunning_of_busy hb, State.pinWrite_fail ha]; rfl
  case ckl => rw [exec, execCkl, whileRunning_of_busy hb, State.pinWrite_fail ha]; rfl
  case ckh => rw [exec, execCkh, whileRunning_of_busy hb, State.pinWrite_fail ha]; rfl
  case smpd k => rw [exec, execSmpd, whileRunning_of_busy hb, State.pinRead_fail ha]; rfl
  case smpf => rw [exec, execSmpf, whileRunning_of_busy hb, State.pinRead_fail ha]; rfl
  case cfg r d l =>
    have hn : ¬ (d = .inp ∧ l = .high) := by
      rintro ⟨rfl, rfl⟩
      exact absurd hw (by simp [WellFormed, Instr.wellFormed])
    rw [exec, execCfg, if_neg hn, whileRunning_of_busy hb, State.call_fail ha]
    rfl
  case rel r => rw [exec, execRel, whileRunning_of_busy hb, State.call_fail ha]; rfl

/-! ### A run of them -/

/-- The state after a run of micro-operations with their events. -/
def State.afterMicros (s : State) (l : List (Instr × Event)) : State :=
  l.foldl (fun t x => t.afterMicro x.1 x.2) s

/-- Each pair is a micro-operation with the event it appends when the ones before it have succeeded. -/
def Follows (s : State) : List (Instr × Event) → Prop
  | [] => True
  | x :: rest => microEvent s x.1 = some x.2 ∧ WellFormed x.1 ∧ Follows (s.afterMicro x.1 x.2) rest

/-- The instructions of the running micro-program from `UPC` on begin with these. -/
def Stands (s : State) (l : List (Instr × Event)) : Prop :=
  (l.map Prod.fst) <+: (programInstrs s.upc.prog).drop s.upc.idx.toNat

theorem State.afterMicros_samePlatform (s : State) (l : List (Instr × Event)) :
    SamePlatform (s.afterMicros l) (s.performedAll (l.map Prod.snd)) := by
  induction l generalizing s with
  | nil => exact ⟨rfl, rfl, rfl, rfl, rfl⟩
  | cons x rest ih =>
    have h := (s.afterMicro_sameEnvironment x.1 x.2).toSamePlatform.performedAll (rest.map Prod.snd)
    have h' := ih (s.afterMicro x.1 x.2)
    exact ⟨h'.trace.trans h.trace, h'.pins.trans h.pins, h'.callScript.trans h.callScript,
      h'.platform.trans h.platform, h'.draws.trans h.draws⟩

/-- The event is one the micro-operation can append, whatever level data-in has. -/
def MayAppend (s : State) (i : Instr) (ev : Event) : Prop :=
  (∃ k, i = .wait k ∧ ev = .wait k) ∨ ∃ c l, microCall s i = some c ∧ ev = c.event l

/-- A micro-operation makes the same call whatever micro-operation went before it. -/
theorem microCall_afterMicro (s : State) (i : Instr) (ev : Event) (j : Instr) :
    microCall (s.afterMicro i ev) j = microCall s j := by
  have h1 : (s.afterMicro i ev).pinCs = s.pinCs := State.performed_pinCs s ev
  have h2 : (s.afterMicro i ev).pinClk = s.pinClk := State.performed_pinClk s ev
  have h3 : (s.afterMicro i ev).pinDin = s.pinDin := State.performed_pinDin s ev
  have h : ∀ r, (s.afterMicro i ev).pin r = s.pin r := by intro r; cases r <;> assumption
  cases j <;> simp only [microCall, h1, h2, h3, h]

/-- Events the micro-operations can append are those they do append, if the reads among them yield the levels there
are. -/
theorem follows_of_sensed {s : State} {l : List (Instr × Event)} (hw : ∀ x ∈ l, WellFormed x.1)
    (hm : ∀ x ∈ l, MayAppend s x.1 x.2) (hs : Sensed s (l.map Prod.snd)) : Follows s l := by
  induction l generalizing s with
  | nil => trivial
  | cons x rest ih =>
    obtain ⟨i, ev⟩ := x
    refine ⟨?_, hw _ (List.mem_cons_self ..), ih (fun y hy => hw y (List.mem_cons_of_mem _ hy)) ?_ ?_⟩
    · rcases hm _ (List.mem_cons_self ..) with ⟨k, hi, he⟩ | ⟨c, lv, hc, he⟩
      · simp only at hi he
        subst hi he
        rfl
      · simp only at hc he
        subst he
        have he : c.event s.dinAnswer = c.event lv := by
          cases c with
          | read p => rw [PlatCall.event, PlatCall.event, hs.1 p lv rfl]
          | _ => rfl
        cases i <;> simp only [microCall, reduceCtorEq, Option.some.injEq] at hc <;> simp [microEvent, microCall, hc, he]
    · intro y hy
      rcases hm y (List.mem_cons_of_mem _ hy) with h | ⟨c, lv, hc, he⟩
      · exact .inl h
      · exact .inr ⟨c, lv, by rw [microCall_afterMicro]; exact hc, he⟩
    · exact (s.afterMicro_sameEnvironment i ev).sensed.mpr hs.2

/-- A run of micro-operations with events: if the platform lets every call succeed it passes them all, and if it fails
one it stops there with the exception of that one (R131, R132). -/
theorem runToIdle_events {s : State} (hb : s.busy) {l : List (Instr × Event)} (hs : Stands s l) (hf : Follows s l)
    (k : Nat) :
    (firstFailure s (l.map Prod.snd) = none ∧
      runToIdle (k + l.length) s = runToIdle k (s.afterMicros l)) ∨
    (∃ n c e x, firstFailure s (l.map Prod.snd) = some (n, c, e) ∧ l[n]? = some x ∧ callOf x.2 = some c ∧
      runToIdle (k + l.length) s =
        .next (((s.afterMicros (l.take n)).answered (.fail c e)).raise (failureOf e x.1))) := by
  induction l generalizing s with
  | nil => exact .inl ⟨rfl, rfl⟩
  | cons x rest ih =>
    obtain ⟨i, ev⟩ := x
    obtain ⟨hm, hw, hf⟩ := hf
    obtain ⟨more, hmore⟩ := hs
    have hi : (programInstrs s.upc.prog)[s.upc.idx.toNat]? = some i := by
      have := congrArg (fun l => l[0]?) hmore
      simpa using this.symm
    have hlt : s.upc.idx.toNat < (programInstrs s.upc.prog).length := (List.getElem?_eq_some_iff.mp hi).1
    have hinc := idx_succ (x := s.upc.idx) (by have := programInstrs_length_lt s.upc.prog; omega)
    have hs' : Stands (s.afterMicro i ev) rest := by
      refine ⟨more, ?_⟩
      have := congrArg List.tail hmore
      show rest.map Prod.fst ++ more = (programInstrs s.upc.prog).drop (s.upc.idx + 1).toNat
      rw [hinc]
      simpa using this
    have hk : k + (rest.length + 1) = (k + rest.length) + 1 := by omega
    cases ha : (callOf ev).bind fun c => (s.platformAnswer c).map fun e => (c, e) with
    | some ce =>
      obtain ⟨c, e⟩ := ce
      obtain ⟨c', hc', ha'⟩ := Option.bind_eq_some_iff.mp ha
      obtain ⟨e', he', hce⟩ := Option.map_eq_some_iff.mp ha'
      cases hce
      refine .inr ⟨0, c, e, (i, ev), by simp [firstFailure, ha], rfl, hc', ?_⟩
      rw [List.length_cons, hk, runToIdle_of_micro hb hi (exec_raises hb hw hm hc' he')]
      exact runToIdle_of_idle rfl _
    | none =>
      have hok : ∀ c, callOf ev = some c → s.platformAnswer c = none := by
        intro c hc
        simpa [hc] using ha
      have hx := exec_performs hb hw hm hok
      have hff : firstFailure s (ev :: rest.map Prod.snd) =
          (firstFailure (s.afterMicro i ev) (rest.map Prod.snd)).map fun x => (x.1 + 1, x.2) := by
        rw [(s.afterMicro_sameEnvironment i ev).toSamePlatform.firstFailure]
        simp [firstFailure, ha]
      rcases ih (s := s.afterMicro i ev) hb hs' hf with ⟨hn, hr⟩ | ⟨n, c, e, x, hn, hx', hc, hr⟩
      · refine .inl ⟨by simp only [List.map_cons, hff, hn]; rfl, ?_⟩
        rw [List.length_cons, hk, runToIdle_of_micro hb hi hx, hr]
        rfl
      · refine .inr ⟨n + 1, c, e, x, by simp only [List.map_cons, hff, hn]; rfl, by simpa using hx', hc, ?_⟩
        rw [List.length_cons, hk, runToIdle_of_micro hb hi hx, hr]
        rfl

end Sys2Proof.Machine
end

