-- ==== Sys2Proof/Tests/Slice0.lean ====
section
/-!
SUPPORT. Tests of the model against the spec's encodings and its vectors (95_test_vectors.md), each about one step or
less; and, for every statement that has hypotheses, a named witness that they can be met together.
-/

namespace Sys2Proof.Tests

open Sys2Proof.Machine

/-! ### Small states -/

/-- The pins of the vectors: 8, 11 and 9. -/
def cs : PinId := ⟨8⟩
def clk : PinId := ⟨11⟩
def din : PinId := ⟨9⟩

/-- After reset with every pin Free, on the ideal platform. -/
def fresh : State := { State.reset with pins := ⟨.allFree, []⟩, platform := .ideal ⟨7⟩ }

/-- Ready after `INIT 8, 11, 9, C`. -/
def ready : State :=
  { fresh with
    lifecycle := .ready, unit := .celsius, pinCs := cs, pinClk := clk, pinDin := din
    pins := ⟨.allFree, [(cs, .out .high), (din, .inp), (clk, .out .low)]⟩ }

def released : State := { ready with lifecycle := .released, pins := ⟨.allFree, []⟩ }

/-- In the middle of a READ, before entry `n`. -/
def reading (n : BitVec 6) : State := { ready with upc := ⟨.readP, n⟩, readNo := 1 }

/-- In the middle of an INIT, before entry `n`. -/
def initing (n : BitVec 6) : State := { ready with lifecycle := .uninitialized, pins := ⟨.allFree, []⟩, upc := ⟨.initP, n⟩ }

/-- In the middle of a TEARDOWN, before entry `n`. -/
def tearing (n : BitVec 6) : State := { ready with upc := ⟨.tdP, n⟩ }

/-- A field of the next state. -/
def after {α : Type} (o : Host.Outcome State Fault Refusal) (f : State → α) : Option α :=
  match o with
  | .next t => some (f t)
  | .fault _ => none
  | .refused _ => none

/-! ### Well-formedness -/

theorem test_cfg_in_high_is_illFormed :
    ∀ r : Role, Instr.wellFormed (.cfg r .inp .high) = false := by intro r; cases r <;> rfl

theorem test_cfg_in_low_is_wellFormed : WellFormed (.cfg .din .inp .low) := rfl

/-! ### Decoding: a word for every constructor, written out from 30_encoding.md R86 and R93 -/

theorem test_decode_initRaw : decodeH ⟨0b00000000#8, cs, clk, din⟩ = .ok (.initRaw cs clk din) := rfl
theorem test_decode_initC : decodeH ⟨0b00010000#8, cs, clk, din⟩ = .ok (.initC cs clk din) := rfl
theorem test_decode_initF : decodeH ⟨0b00100000#8, cs, clk, din⟩ = .ok (.initF cs clk din) := rfl
theorem test_decode_read : decodeH ⟨0b01000000#8, cs, clk, din⟩ = .ok .read := rfl
theorem test_decode_teardown : decodeH ⟨0b10000000#8, cs, clk, din⟩ = .ok .teardown := rfl
theorem test_decode_csl : decodeU 0b00010000#8 = .ok .csl := rfl
theorem test_decode_csh : decodeU 0b00010001#8 = .ok .csh := rfl
theorem test_decode_ckl : decodeU 0b00100000#8 = .ok .ckl := rfl
theorem test_decode_ckh : decodeU 0b00100001#8 = .ok .ckh := rfl
theorem test_decode_smpd : decodeU 0b00111011#8 = .ok (.smpd 11) := rfl
theorem test_decode_smpf : decodeU 0b01000000#8 = .ok .smpf := rfl
theorem test_decode_wait : decodeU 0b01010001#8 = .ok (.wait .tConv) := rfl
theorem test_decode_clr : decodeU 0b01100000#8 = .ok .clr := rfl
theorem test_decode_conv : decodeU 0b01110000#8 = .ok .conv := rfl
theorem test_decode_cfg : decodeU 0b10000110#8 = .ok (.cfg .clk .out .low) := rfl
theorem test_decode_rel : decodeU 0b10010010#8 = .ok (.rel .din) := rfl
theorem test_decode_rdy : decodeU 0b10100000#8 = .ok .rdy := rfl
theorem test_decode_rls : decodeU 0b10110000#8 = .ok .rls := rfl

/-- The reserved words of vector table 2.4, and op 3 (R92). -/
theorem test_decode_reserved :
    decodeH (bareCmd 0x30#8) = .error .reservedUnit ∧ decodeH (bareCmd 0x50#8) = .error .reservedUnit ∧
    decodeH (bareCmd 0x01#8) = .error .nonzeroLow ∧ decodeH (bareCmd 0xC0#8) = .error .reservedOp ∧
    decodeH (bareCmd 0xFF#8) = .error .reservedOp := by
  refine ⟨rfl, rfl, rfl, rfl, rfl⟩

/-- Words that are no micro-operation (R94). -/
theorem test_decode_no_micro :
    decodeU 0x00#8 = .error .noMicroOperation ∧ decodeU 0xC0#8 = .error .noMicroOperation ∧
    decodeU 0x3C#8 = .error .badArgument ∧ decodeU 0x53#8 = .error .badArgument ∧
    decodeU 0x81#8 = .error .badArgument ∧ decodeU 0x8C#8 = .error .badArgument ∧
    decodeU 0x93#8 = .error .badArgument ∧ decodeU 0x12#8 = .error .badArgument := by
  refine ⟨rfl, rfl, rfl, rfl, rfl, rfl, rfl, rfl⟩

/-! ### One step, from the vectors of 95_test_vectors.md -/

/-- 2.4, row 8: INIT C 8, 11, 9 is admitted. -/
theorem test_initC_admitted :
    after (exec (.initC cs clk din) fresh) (fun t => (t.unit, t.pinClk, t.upc, t.respValid)) =
      some (.celsius, clk, ⟨.initP, 0#6⟩, false) := by decide

/-- 2.4, row 6: two equal pins. -/
theorem test_initC_notDistinct :
    after (exec (.initC cs cs din) fresh) (fun t => (t.resp, t.respInfo, t.lifecycle)) =
      some (0x30001#18, .distinct, .uninitialized) := by decide

/-- 2.4, row 9: INIT RAW in Ready; unit and pins unchanged. -/
theorem test_initRaw_in_ready :
    after (exec (.initRaw ⟨1⟩ ⟨2⟩ ⟨3⟩) ready) (fun t => (t.resp, t.unit, t.pinCs, t.lifecycle)) =
      some (0x30003#18, .celsius, cs, .ready) := by decide

/-- 2.4, row 15: INIT F in Released. -/
theorem test_initF_in_released :
    after (exec (.initF cs clk din) released) (fun t => (t.resp, t.lifecycle)) =
      some (0x30003#18, .released) := by decide

/-- 2.4, row 1: READ in Uninitialized. -/
theorem test_read_uninitialized :
    after (exec .read fresh) (fun t => (t.resp, t.lifecycle, t.trace)) =
      some (0x30003#18, .uninitialized, []) := by decide

/-- 2.4, row 13: the second TEARDOWN. -/
theorem test_teardown_twice :
    after (exec .teardown released) (fun t => (t.resp, t.lifecycle, t.trace)) =
      some (0x00000#18, .released, []) := by decide

/-- Priority (2.4): word 0x30 in Ready is IllegalCommand, whatever its operands. -/
theorem test_illegal_first :
    after (step { ready with hostProgram := [⟨0x30#8, cs, cs, din⟩] }) (fun t => (t.resp, t.hostProgram)) =
      some (0x30004#18, []) := by decide

/-- 2.3, event 1: `ReadP[1]` drives chip-select low, and `UPC.idx` is then 2. -/
theorem test_csl :
    after (step (reading 1#6)) (fun t => (t.trace, t.pins.get cs, t.upc.idx)) =
      some ([.write cs .low], .out .low, 2#6) := by decide

/-- 2.3, event 53: `ReadP[53]` drives chip-select high. -/
theorem test_csh :
    after (step (reading 53#6)) (fun t => (t.trace, t.upc.idx)) = some ([.write cs .high], 54#6) := by decide

/-- 2.3, event 7. -/
theorem test_ckl :
    after (step (reading 7#6)) (fun t => (t.trace, t.pins.get clk)) =
      some ([.write clk .low], .out .low) := by decide

/-- 2.3, event 6. -/
theorem test_ckh :
    after (step (reading 6#6)) (fun t => (t.trace, t.pins.get clk)) =
      some ([.write clk .high], .out .high) := by decide

/-- 2.3, register values for frame 0x6808: event 9 leaves RAW = 0x800. -/
theorem test_smpd_first :
    after (step { reading 9#6 with dinScript := [.high] }) (fun t => (t.trace, t.raw)) =
      some ([.read din .high], 0x800#12) := by decide

/-- 2.3, register values for frame 0x6808: event 42 takes RAW from 0xD00 to 0xD01. -/
theorem test_smpd_last :
    after (step { reading 42#6 with raw := 0xD00#12, dinScript := [.high] }) (fun t => t.raw) =
      some 0xD01#12 := by decide

/-- 2.1, frame 0x7FFC: the fault sample does not touch RAW. -/
theorem test_smpf :
    after (step { reading 45#6 with raw := 0xFFF#12, dinScript := [.high] }) (fun t => (t.fault, t.raw)) =
      some (1#1, 0xFFF#12) := by decide

/-- 2.3, event 48. -/
theorem test_wait :
    after (step (reading 48#6)) (fun t => (t.trace, t.upc.idx)) = some ([.wait .tPulse], 49#6) := by decide

/-- P2: CLR overwrites what an earlier READ left. -/
theorem test_clr :
    after (step { reading 0#6 with raw := 0xFFF#12, fault := 1#1 }) (fun t => (t.raw, t.fault, t.trace)) =
      some (0#12, 0#1, []) := by decide

/-- 2.2, row r = 4095: 37495 = 0x9277 in Fahrenheit. -/
theorem test_conv_fahrenheit :
    after (step { reading 54#6 with unit := .fahrenheit, raw := 0xFFF#12 }) (fun t => (t.resp, t.upc)) =
      some (0x19277#18, ⟨.idle, 0#6⟩) := by decide

/-- S4: data all ones with the fault bit. -/
theorem test_conv_fault :
    after (step { reading 54#6 with raw := 0xFFF#12, fault := 1#1 }) (fun t => (t.resp, t.lifecycle)) =
      some (0x20000#18, .ready) := by decide

/-- 2.5, rows 1 to 3: `InitP[1]` configures clock as an output, low. -/
theorem test_cfg :
    after (step (initing 1#6)) (fun t => (t.trace, t.pins.get clk)) =
      some ([.cfg clk (.out .low)], .out .low) := by decide

/-- P5, command 1: the ideal platform refuses a pin that is not Free; info is the role and the error. -/
theorem test_cfg_fails :
    after (step { initing 1#6 with pins := ⟨.allFree, [(clk, .out .low)]⟩ }) (fun t => (t.resp, t.respInfo, t.trace)) =
      some (0x30001#18, .config .clk ⟨7⟩, [.fail (.cfg clk (.out .low)) ⟨7⟩]) := by decide

/-- P1, command 3: `TdP[1]` frees clock. -/
theorem test_rel :
    after (step (tearing 1#6)) (fun t => (t.trace, t.pins.get clk)) = some ([.rel clk], .free) := by decide

/-- 2.5, row `TdP[1]` failing: Released, the pin as before. -/
theorem test_rel_fails :
    after (step { tearing 1#6 with callScript := [some ⟨5⟩] })
      (fun t => (t.resp, t.respInfo, t.lifecycle, t.pins.get clk)) =
      some (0x30002#18, .io ⟨5⟩, .released, .out .low) := by decide

/-- 2.4, row 8: the end of INIT. -/
theorem test_rdy :
    after (step (initing 3#6)) (fun t => (t.resp, t.lifecycle, t.respValid)) =
      some (0x00000#18, .ready, true) := by decide

/-- 2.4, row 12: the end of TEARDOWN. -/
theorem test_rls :
    after (step (tearing 3#6)) (fun t => (t.resp, t.lifecycle)) = some (0x00000#18, .released) := by decide

/-- 2.5, row `ReadP[27]`: a failing SMPD 5 leaves RAW = 0xFC0 and the pins, and appends only the Fail event. -/
theorem test_smpd_fails :
    after (step { reading 27#6 with raw := 0xFC0#12, callScript := [some ⟨5⟩] })
      (fun t => (t.resp, t.raw, t.lifecycle, t.trace)) =
      some (0x30002#18, 0xFC0#12, .ready, [.fail (.read din) ⟨5⟩]) := by decide

/-- R64: the second clock write to high since chip-select fell gives bit 14 of the frame. -/
theorem test_frame_bit :
    ({ reading 9#6 with
      sensor := .frames [0x4000#16]
      trace := [.write clk .high, .write cs .low, .write clk .high, .write clk .low, .write clk .high] } :
        State).dinAnswer = .high := by decide

/-- The table word 0x60 (CLR) placed after reset is the next instruction run. -/
theorem test_withFetchWord_micro :
    decodeTableWord 8 0x60 = some .clr ∧
      after (step (fresh.withFetchWord 8 0x60)) (fun t => t.upc) = some ⟨.readP, 1#6⟩ := by decide

/-- The table word 0x40 placed after reset is the host's READ. -/
theorem test_withFetchWord_command :
    decodeTableWord 8 0x40 = some .read ∧
      after (step (fresh.withFetchWord 8 0x40)) (fun t => t.resp) = some 0x30003#18 := by decide

/-- R232: a driver dropped while Ready, without a TEARDOWN, leaves its pins claimed for the run that follows. -/
theorem test_restart_keeps_pins :
    after ready.restart (fun t => (t.lifecycle, t.pins.get clk)) = some (.uninitialized, .out .low) := by decide

/-- R11, R233: a reset in the middle of a READ, and a command given there, have no step. -/
theorem test_busy_refuses :
    (reading 9#6).restart = .refused .resetWhileBusy ∧
      runCommand (bareCmd 0x80#8) (reading 9#6) = .refused .commandWhileBusy := ⟨rfl, rfl⟩

/-- R24: `ReadP` ends with entry 54, and there is no step beyond it. -/
theorem test_no_entry : step (reading 55#6) = .refused .noRomEntry := rfl

/-- R232: a pin nobody has touched since the launch holds what the launch found, whatever that is. -/
theorem test_launch_pin : State.reset.pins.get cs = Config.launchPins cs := rfl

/-! ### Witnesses: the hypotheses of each statement can be met together -/

theorem witness_encodeDecodeRoundTrip : WellFormed (.cfg .clk .out .high) ∧ WellFormed (.initC cs clk din) :=
  ⟨rfl, rfl⟩

theorem witness_microWordIsItsOwnEncoding : decodeU 0x3B#8 = .ok (.smpd 11) := rfl

theorem witness_stepRuns_waiting : fresh.upc.prog = .idle ∧ fresh.hostProgram = [] := by decide

theorem witness_stepRuns_command :
    ({ fresh with hostProgram := [bareCmd 0x40#8, bareCmd 0x80#8] } : State).upc.prog = .idle ∧
      ({ fresh with hostProgram := [bareCmd 0x40#8, bareCmd 0x80#8] } : State).hostProgram =
        bareCmd 0x40#8 :: [bareCmd 0x80#8] ∧ decodeH (bareCmd 0x40#8) = .ok .read := ⟨rfl, rfl, rfl⟩

theorem witness_stepRuns_micro :
    (reading 54#6).busy ∧ romWord (reading 54#6).upc = some 0x70#8 ∧ decodeU 0x70#8 = .ok .conv :=
  ⟨by decide, rfl, rfl⟩

theorem witness_placedWord_command : decodeH (bareCmd 0x80#8) = .ok .teardown := rfl

theorem witness_placedWord_micro :
    (∀ j, decodeH (bareCmd 0xB0#8) ≠ .ok j) ∧ romFind 0xB0#8 = some ⟨.tdP, 3#6⟩ ∧
      decodeU 0xB0#8 = .ok .rls := by
  refine ⟨fun j h => ?_, rfl, rfl⟩
  have e : decodeH (bareCmd 0xB0#8) = .error .reservedUnit := rfl
  rw [e] at h
  cases h

theorem witness_initIsAdmitted :
    (Instr.initF cs clk din, TempUnit.fahrenheit) ∈
        [(Instr.initRaw cs clk din, TempUnit.raw), (.initC cs clk din, .celsius), (.initF cs clk din, .fahrenheit)] ∧
      fresh.upc.prog = .idle ∧ fresh.lifecycle = .uninitialized ∧ cs ≠ clk ∧ cs ≠ din ∧ clk ≠ din := by decide

/-- One for each pair of pins that may be equal. -/
theorem witness_initNeedsDistinctPins :
    (Instr.initRaw cs cs din, TempUnit.raw) ∈
        [(Instr.initRaw cs cs din, TempUnit.raw), (.initC cs cs din, .celsius), (.initF cs cs din, .fahrenheit)] ∧
      (Instr.initC cs clk cs, TempUnit.celsius) ∈
        [(Instr.initRaw cs clk cs, TempUnit.raw), (.initC cs clk cs, .celsius), (.initF cs clk cs, .fahrenheit)] ∧
      (Instr.initF cs clk clk, TempUnit.fahrenheit) ∈
        [(Instr.initRaw cs clk clk, TempUnit.raw), (.initC cs clk clk, .celsius), (.initF cs clk clk, .fahrenheit)] ∧
      fresh.upc.prog = .idle ∧ fresh.lifecycle = .uninitialized := by decide

/-- For ReadIsAdmitted, TeardownIsAdmitted, and the INIT clause of WrongLifecycleIsInvalidState. -/
theorem witness_idle_ready : ready.upc.prog = .idle ∧ ready.lifecycle = .ready := by decide

/-- For SecondTeardownIsANoOp, and the READ clause of WrongLifecycleIsInvalidState. -/
theorem witness_idle_released : released.upc.prog = .idle ∧ released.lifecycle = .released := by decide

/-- For the READ and TEARDOWN clauses of WrongLifecycleIsInvalidState. -/
theorem witness_idle_uninitialized : fresh.upc.prog = .idle ∧ fresh.lifecycle = .uninitialized := by decide

theorem witness_reservedWord :
    ({ fresh with hostProgram := [bareCmd 0xFF#8] } : State).upc.prog = .idle ∧
      ({ fresh with hostProgram := [bareCmd 0xFF#8] } : State).hostProgram = bareCmd 0xFF#8 :: [] ∧
      (bareCmd 0xFF#8).word ∉ [0x00#8, 0x10#8, 0x20#8, 0x40#8, 0x80#8] := by decide

theorem witness_exclude_command : (reading 1#6).busy ∧ encode .read = .command (bareCmd 0x40#8) :=
  ⟨by decide, rfl⟩

theorem witness_exclude_micro :
    ready.upc.prog = .idle ∧ WellFormed (.cfg .cs .out .high) ∧ encode (.cfg .cs .out .high) = .micro 0x83#8 :=
  ⟨rfl, rfl, rfl⟩

/-- For WaitCompletes, ClrCompletes and RdyAndRlsComplete. -/
theorem witness_busy : (reading 48#6).busy ∧ (tearing 3#6).busy ∧ (initing 3#6).busy := by decide

theorem witness_writes_succeed :
    (reading 1#6).busy ∧ (reading 1#6).platformAnswer (.write (reading 1#6).pinCs .low) = none ∧
      (reading 1#6).platformAnswer (.write (reading 1#6).pinCs .high) = none ∧
      (reading 1#6).platformAnswer (.write (reading 1#6).pinClk .low) = none ∧
      (reading 1#6).platformAnswer (.write (reading 1#6).pinClk .high) = none := by decide

theorem witness_cfg_succeeds :
    (initing 0#6).busy ∧
      (initing 0#6).platformAnswer (.cfg ((initing 0#6).pin .cs) (.out .high)) = none ∧
      (initing 0#6).platformAnswer (.cfg ((initing 0#6).pin .din) .inp) = none := by decide

theorem witness_rel_succeeds :
    (tearing 0#6).busy ∧ (tearing 0#6).platformAnswer (.rel ((tearing 0#6).pin .cs)) = none := by decide

/-- For SmpdCompletes, SmpdAddsItsWeight and SmpfCompletes. -/
theorem witness_read_succeeds :
    (reading 9#6).busy ∧ (reading 9#6).platformAnswer (.read (reading 9#6).pinDin) = none ∧
      (reading 9#6).raw.getLsbD (11 : Fin 12).val = false := by decide

/-- Each case of ConvCompletes. -/
theorem witness_conv :
    (reading 54#6).busy ∧ (reading 54#6).fault = 0#1 ∧ (reading 54#6).unit = .celsius ∧
      ({ reading 54#6 with unit := .raw } : State).unit = .raw ∧
      ({ reading 54#6 with unit := .fahrenheit } : State).unit = .fahrenheit ∧
      ({ reading 54#6 with fault := 1#1 } : State).fault = 1#1 := by decide

/-- A scripted failure answers any call: for FailedAccessRaisesPinIOError, every clause. -/
theorem witness_access_fails :
    ({ reading 1#6 with callScript := [some ⟨5⟩] } : State).busy ∧
      ∀ c : PlatCall, ({ reading 1#6 with callScript := [some ⟨5⟩] } : State).platformAnswer c = some ⟨5⟩ :=
  ⟨by decide, fun _ => rfl⟩

theorem witness_cfg_fails :
    ({ initing 0#6 with callScript := [some ⟨5⟩] } : State).busy ∧
      ∀ c : PlatCall, ({ initing 0#6 with callScript := [some ⟨5⟩] } : State).platformAnswer c = some ⟨5⟩ :=
  ⟨by decide, fun _ => rfl⟩

theorem witness_ideal_init :
    fresh.callScript = [] ∧ fresh.platform = .ideal ⟨7⟩ ∧ fresh.upc = ⟨.idle, 0#6⟩ ∧
      0x10#8 ∈ [0x00#8, 0x10#8, 0x20#8] ∧ fresh.lifecycle = .uninitialized ∧
      cs ≠ clk ∧ cs ≠ din ∧ clk ≠ din ∧
      fresh.pins.get cs = .free ∧ fresh.pins.get clk = .free ∧ fresh.pins.get din = .free := by decide

/-- For the clause of IdealPlatformSucceeds about pins that are not Free. -/
theorem witness_ideal_claimed :
    ({ fresh with pins := ⟨.allFree, [(din, .inp)]⟩ } : State).platform = .ideal ⟨7⟩ ∧
      ({ fresh with pins := ⟨.allFree, [(din, .inp)]⟩ } : State).callScript = [] ∧
      ({ fresh with pins := ⟨.allFree, [(din, .inp)]⟩ } : State).upc = ⟨.idle, 0#6⟩ ∧
      ({ fresh with pins := ⟨.allFree, [(din, .inp)]⟩ } : State).lifecycle = .uninitialized ∧
      ({ fresh with pins := ⟨.allFree, [(din, .inp)]⟩ } : State).pins.get din ≠ .free := by decide

/-- For the READ and TEARDOWN clauses of IdealPlatformSucceeds. -/
theorem witness_ideal_ready :
    ready.callScript = [] ∧ ready.platform = .ideal ⟨7⟩ ∧ ready.upc = ⟨.idle, 0#6⟩ ∧ ready.lifecycle = .ready := by
  decide

/-- For ConversionIsStrictlyIncreasing. -/
theorem witness_rising : (0#12).toNat < (4095#12).toNat ∧ convert .celsius 4#12 = convert .celsius 4#12 :=
  ⟨by decide, rfl⟩

/-- For StepKeepsInv and each of its parts, in the middle of a READ: before entry 9, eight events in, clock high. -/
theorem witness_inv :
    Inv { reading 9#6 with pins := ⟨.allFree, [(cs, .out .low), (din, .inp), (clk, .out .high)]⟩ } where
  pins := by decide
  upc := ⟨by decide, fun _ => by decide⟩
  lifecycle := ⟨by decide, by decide, by decide⟩
  configured := ⟨by decide, by decide, by decide, fun _ _ => ⟨⟨.low, rfl⟩, ⟨.high, rfl⟩, rfl⟩⟩
  unsampled := fun _ _ => ⟨fun j _ => by simp [reading, ready, fresh, State.reset], fun _ => rfl⟩
  levels := fun _ => ⟨fun l h => by cases h; rfl, fun l h => by cases h; rfl⟩
  resp := .inl ⟨rfl, rfl⟩

/-- The step of the state above answers a next state: for every statement with a step as a hypothesis. -/
theorem witness_step :
    ∃ t, step { reading 9#6 with pins := ⟨.allFree, [(cs, .out .low), (din, .inp), (clk, .out .high)]⟩ } = .next t :=
  ⟨_, rfl⟩

/-- For the second clause of StepKeepsPinTableCanonical. -/
theorem witness_equal_tables :
    PinTable.wf ⟨.allFree, [(cs, .inp)]⟩ = true ∧ (PinTable.put ⟨.allFree, []⟩ cs .inp).wf = true ∧
      PinBase.allFree = (PinTable.put ⟨.allFree, []⟩ cs .inp).base ∧
      ∀ p, PinTable.get ⟨.allFree, [(cs, .inp)]⟩ p = (PinTable.put ⟨.allFree, []⟩ cs .inp).get p :=
  ⟨by decide, by decide, rfl, fun _ => rfl⟩

/-- For the first clause of StepKeepsPinTableCanonical, with the table of a launch: a step from the reset state, in which
nothing is listed. -/
theorem witness_launch_table : State.reset.pins.wf = true ∧ ∃ t, step State.reset = .next t := ⟨by decide, _, rfl⟩

/-- For the restart clauses of ResetValues, ResetChoices and ResetMeetsInv: a run that ended in Released, one that ended in
Ready, and a READ under way. -/
theorem witness_restart :
    released.upc.prog = .idle ∧ released.pins.wf = true ∧ (∃ t, released.restart = .next t) ∧
      ready.upc.prog = .idle ∧ ready.pins.wf = true ∧ (∃ t, ready.restart = .next t) ∧ (reading 9#6).busy :=
  ⟨rfl, by decide, ⟨_, rfl⟩, rfl, by decide, ⟨_, rfl⟩, by decide⟩

/-- For LegalUpcNeverStops and MicroProgramsEnd. -/
theorem witness_legal_upc : UpcLegal (reading 0#6) ∧ (reading 0#6).busy := ⟨⟨by decide, fun _ => by decide⟩, by decide⟩

/-- For LifecycleEdges, at the step of the edge from Ready to Released. -/
theorem witness_edge :
    LifecycleLegal (tearing 3#6) ∧ ∃ t, step (tearing 3#6) = .next t :=
  ⟨⟨by decide, by decide, by decide⟩, _, rfl⟩

/-- For UnitAndPinsAreImmutable, each of the two cases of its conclusion: a step of a READ, and an admitted INIT. -/
theorem witness_immutable :
    (∃ t, step (reading 9#6) = .next t) ∧
      (∃ t, step { fresh with hostProgram := [⟨0x20#8, clk, cs, din⟩] } = .next t ∧
        (t.unit, t.pinCs, t.pinClk, t.pinDin) = (.fahrenheit, clk, cs, din) ∧ t.unit ≠ fresh.unit) :=
  ⟨⟨_, rfl⟩, _, rfl, by decide, by decide⟩

/-- For ResponseOnlyAtTheEnd: a step of a running READ, and an admission, after which the controller is busy. -/
theorem witness_busy_after :
    (∃ t, step (reading 9#6) = .next t ∧ t.busy) ∧
      (∃ t, step { ready with hostProgram := [bareCmd 0x40#8] } = .next t ∧ t.busy) :=
  ⟨⟨_, rfl, by decide⟩, ⟨_, rfl, by decide⟩⟩

/-- For EveryCommandIsAnswered and ReadTraceCounts. -/
theorem witness_idle : fresh.upc = ⟨.idle, 0#6⟩ ∧ pinsDistinct cs clk din := by decide

theorem witness_initCommand :
    (0x10#8, TempUnit.celsius) ∈ [(0x00#8, TempUnit.raw), (0x10#8, .celsius), (0x20#8, .fahrenheit)] ∧
      fresh.upc = ⟨.idle, 0#6⟩ ∧ fresh.lifecycle = .uninitialized ∧ cs ≠ clk ∧ cs ≠ din ∧ clk ≠ din := by decide

/-- INIT's configurations: all succeed; the last fails; the ideal platform refuses a clock pin that is not Free. -/
theorem witness_initCommand_branches :
    firstFailure fresh (initEvents cs clk din) = none ∧
      firstFailure { fresh with callScript := [none, none, some ⟨5⟩] } (initEvents cs clk din) =
        some (2, .cfg din .inp, ⟨5⟩) ∧
      firstFailure { fresh with pins := ⟨.allFree, [(clk, .inp)]⟩ } (initEvents cs clk din) =
        some (1, .cfg clk (.out .low), ⟨7⟩) := by decide

/-- For ReadCommand and TeardownCommand, with the levels ReadCommand's failure clause asks for. -/
theorem witness_readCommand :
    ready.upc = ⟨.idle, 0#6⟩ ∧ ready.lifecycle = .ready ∧ pinsDistinct ready.pinCs ready.pinClk ready.pinDin ∧
      ready.pins.get ready.pinCs = .out .high ∧ ready.pins.get ready.pinClk = .out .low := by decide

/-- TEARDOWN's releases: all succeed; the first fails; the last fails. -/
theorem witness_teardownCommand_branches :
    firstFailure ready (teardownEvents cs clk din) = none ∧
      firstFailure { ready with callScript := [some ⟨5⟩] } (teardownEvents cs clk din) =
        some (0, .rel cs, ⟨5⟩) ∧
      firstFailure { ready with callScript := [none, none, some ⟨5⟩] } (teardownEvents cs clk din) =
        some (2, .rel din, ⟨5⟩) := by decide

/-- READ's calls: all succeed. -/
theorem witness_readCommand_succeeds :
    firstFailure ready (readEvents cs clk din (fun _ => .high) .low) = none := by decide

/-- READ's calls: the first fails (event 0, chip-select is still high there); the last fails (event 52, call 48). -/
theorem witness_readCommand_fails :
    firstFailure { ready with callScript := [some ⟨5⟩] } (readEvents cs clk din (fun _ => .high) .low) =
        some (0, .write cs .low, ⟨5⟩) ∧
      firstFailure { ready with callScript := List.replicate 48 none ++ [some ⟨5⟩] }
          (readEvents cs clk din (fun _ => .high) .low) =
        some (52, .write cs .high, ⟨5⟩) := by decide

/-- 2.5, row `ReadP[27]`: SMPD 5 is event 26 of a READ, counted from 0; with all bits 1 so far RAW is then 0xFC0, chip-select
low and clock high. -/
theorem test_read_failing_at_27 :
    (readEvents cs clk din (fun _ => .high) .high)[26]? = some (.read din .high) ∧
      ([0, 1, 2, 3, 4, 5, 6, 7, 8, 9, 10, 11] : List (Fin 12)).map (rawBitAfter (fun _ => .high) 26) =
        [false, false, false, false, false, false, true, true, true, true, true, true] ∧
      csLevelAtEvent 26 = .low ∧ clkLevelAtCall clk (.read din) = .high := by decide

/-- Ready, with 49 successful calls and the bits of frame 0x0320 to come. -/
def scripted : State :=
  { ready with
    callScript := List.replicate 49 none
    dinScript := [.low, .low, .low, .low, .low, .high, .high, .low, .low, .high, .low, .low, .low] }

theorem witness_readDecodesTheSampledBits :
    scripted.upc = ⟨.idle, 0#6⟩ ∧ scripted.lifecycle = .ready ∧
      pinsDistinct scripted.pinCs scripted.pinClk scripted.pinDin ∧
      scripted.callScript = List.replicate 49 none ++ [] ∧
      ∃ b : Fin 12 → Level, scripted.dinScript =
        [b 11, b 10, b 9, b 8, b 7, b 6, b 5, b 4, b 3, b 2, b 1, b 0, .low] ++ [] :=
  ⟨rfl, rfl, by decide, by decide, fun i => levelOfBool ((100#12).getLsbD i.val), by decide⟩

/-- Two different states that meet the hypotheses of ReadResponseDependsOnlyOnTheBits. -/
theorem witness_readResponseDependsOnlyOnTheBits :
    scripted.upc = ⟨.idle, 0#6⟩ ∧ scripted.lifecycle = .ready ∧
      ({ scripted with raw := 0xFFF#12, fault := 1#1 } : State).upc = ⟨.idle, 0#6⟩ ∧
      ({ scripted with raw := 0xFFF#12, fault := 1#1 } : State).lifecycle = .ready ∧
      scripted.unit = ({ scripted with raw := 0xFFF#12, fault := 1#1 } : State).unit ∧
      scripted.callScript.take 49 = List.replicate 49 none ∧
      ({ scripted with raw := 0xFFF#12, fault := 1#1 } : State).callScript.take 49 = List.replicate 49 none ∧
      13 ≤ scripted.dinScript.length ∧
      scripted.dinScript.take 13 = ({ scripted with raw := 0xFFF#12, fault := 1#1 } : State).dinScript.take 13 := by
  decide

theorem witness_readUnderAFrameSource :
    ({ ready with sensor := .frames [0x0320#16] } : State).upc = ⟨.idle, 0#6⟩ ∧
      ({ ready with sensor := .frames [0x0320#16] } : State).lifecycle = .ready ∧
      pinsDistinct ready.pinCs ready.pinClk ready.pinDin ∧
      ({ ready with sensor := .frames [0x0320#16] } : State).callScript = [] ∧
      ({ ready with sensor := .frames [0x0320#16] } : State).platform = .ideal ⟨7⟩ ∧
      ({ ready with sensor := .frames [0x0320#16] } : State).dinScript = [] ∧
      ({ ready with sensor := .frames [0x0320#16] } : State).sensor = .frames [0x0320#16] ∧
      [0x0320#16][({ ready with sensor := .frames [0x0320#16] } : State).readNo]? = some 0x0320#16 := by decide

end Sys2Proof.Tests
end

/-!
Which instructions have a step, and when: a host command has one exactly while the sequencer is idle (R70, R110), a
micro-operation exactly while a micro-program runs (R130). From these, the statements of 00_scope.md.
-/

namespace Sys2Proof.Machine

/-! ### The two guards -/

/-- An instruction of format H does whatever it does under the guard that the sequencer is idle. -/
theorem exec_eq_whileIdle {i : Instr} {c : HostCmd} (h : encode i = .command c) (s : State) :
    ∃ t, exec i s = s.whileIdle t := by
  cases i with
  | initRaw cs clk din => exact ⟨s.admitInit .raw cs clk din, rfl⟩
  | initC cs clk din => exact ⟨s.admitInit .celsius cs clk din, rfl⟩
  | initF cs clk din => exact ⟨s.admitInit .fahrenheit cs clk din, rfl⟩
  | read => exact ⟨s.admitRead, rfl⟩
  | teardown => exact ⟨s.admitTeardown, rfl⟩
  | _ => cases h

/-- A well-formed CFG passes the test for the forms that have no encoding (R94). -/
theorem execCfg_wellFormed {r : Role} {d : Dir} {l : Level} (hw : WellFormed (.cfg r d l)) (s : State) :
    execCfg r d l s = s.whileRunning (s.call (.cfg (s.pin r) (setupOf d l)) (.pinConfig r) State.advance) := by
  have hn : ¬ (d = .inp ∧ l = .high) := by
    rintro ⟨rfl, rfl⟩
    cases hw
  exact if_neg hn

/-- A well-formed instruction of format U does whatever it does under the guard that a micro-program runs. -/
theorem exec_eq_whileRunning {i : Instr} {b : Byte} (hw : WellFormed i) (h : encode i = .micro b) (s : State) :
    ∃ t, exec i s = s.whileRunning t := by
  cases i with
  | initRaw | initC | initF | read | teardown => cases h
  | cfg r d l => exact ⟨_, execCfg_wellFormed hw s⟩
  | _ => exact ⟨_, rfl⟩

theorem exec_command_of_busy {s : State} (hb : s.busy) {i : Instr} {c : HostCmd} (h : encode i = .command c) :
    exec i s = .refused .commandWhileBusy := by
  obtain ⟨t, ht⟩ := exec_eq_whileIdle h s
  rw [ht, whileIdle_of_busy hb]

theorem exec_command_of_idle {s : State} (hi : s.upc.prog = .idle) {i : Instr} {c : HostCmd}
    (h : encode i = .command c) : ∃ t, exec i s = .next t := by
  obtain ⟨t, ht⟩ := exec_eq_whileIdle h s
  exact ⟨t, by rw [ht, whileIdle_of_idle hi]⟩

theorem exec_micro_of_idle {s : State} (hi : s.upc.prog = .idle) {i : Instr} {b : Byte} (hw : WellFormed i)
    (h : encode i = .micro b) : exec i s = .refused .sequencerIdle := by
  obtain ⟨t, ht⟩ := exec_eq_whileRunning hw h s
  rw [ht, whileRunning_of_idle hi]

theorem exec_micro_of_busy {s : State} (hb : s.busy) {i : Instr} {b : Byte} (hw : WellFormed i)
    (h : encode i = .micro b) : ∃ t, exec i s = .next t := by
  obtain ⟨t, ht⟩ := exec_eq_whileRunning hw h s
  exact ⟨t, by rw [ht, whileRunning_of_busy hb]⟩

/-! ### What the machine fetches is in the format of the place it is fetched from -/

theorem encode_hostInstr (op : HostOp) (c : HostCmd) : ∃ c', encode (hostInstr op c) = .command c' := by
  rcases op with (_ | _ | _) | _ | _ <;> exact ⟨_, rfl⟩

/-- What a command word decodes to is an instruction of format H. -/
theorem encode_of_decodeH {c : HostCmd} {i : Instr} (h : decodeH c = .ok i) : ∃ c', encode i = .command c' := by
  cases ho : decodeOp c.word with
  | ok op =>
    rw [decodeH_of_decodeOp ho] at h
    cases h
    exact encode_hostInstr op c
  | error e =>
    rw [decodeH, ho] at h
    cases h

/-- The micro-programs hold well-formed instructions of format U only. -/
theorem programInstrs_micro {p : Prog} :
    ∀ i ∈ programInstrs p, WellFormed i ∧ encode i = .micro (encode i).word := by
  cases p <;> decide

/-! ### A step from a legal `UPC` -/

/-- An idle controller always has a step: it waits, admits a command, or answers a reserved word (R110, R231). -/
theorem step_of_idle {s : State} (hi : s.upc.prog = .idle) : ∃ t, step s = .next t := by
  cases hh : s.hostProgram with
  | nil => exact ⟨s, step_waiting hi hh⟩
  | cons c rest =>
    cases hd : decodeH c with
    | ok i =>
      obtain ⟨c', hc⟩ := encode_of_decodeH hd
      rw [step_command hi hh hd]
      exact exec_command_of_idle (s := { s with hostProgram := rest }) hi hc
    | error e => exact ⟨_, step_reserved hi hh hd⟩

/-- A sequencer whose `UPC` names a ROM entry always has a step: the entry is a micro-operation (R24, R130). -/
theorem step_of_busy {s : State} (hb : s.busy) (hlt : s.upc.idx.toNat < (rom s.upc.prog).length) :
    ∃ t, step s = .next t := by
  rw [rom_length] at hlt
  obtain ⟨hw, he⟩ := programInstrs_micro _ (List.getElem_mem hlt)
  rw [step_busy hb (List.getElem?_eq_getElem hlt)]
  exact exec_micro_of_busy hb hw he

/-! ### The statements -/

/-- Settles O15: each clause is the refusal of the guard that the instruction, or the run, stands under. -/
theorem hostAndSequencerExclude : Obligations.HostAndSequencerExclude := by
  unfold Obligations.HostAndSequencerExclude
  refine ⟨?_, ?_, ?_⟩
  · intro s i c hb hc
    exact exec_command_of_busy hb hc
  · intro s c hb
    exact runCommand_of_busy hb c
  · intro s i b hi hw hm
    exact exec_micro_of_idle hi hw hm

/-- Settles O46, by whether the sequencer is idle. -/
theorem legalUpcNeverStops : Obligations.LegalUpcNeverStops := by
  unfold Obligations.LegalUpcNeverStops
  rintro s ⟨-, hentry⟩
  by_cases hi : s.upc.prog = .idle
  · exact step_of_idle hi
  · exact step_of_busy hi (hentry hi)

/-- Settles O35, by the two cases of the start of a further run. -/
theorem resetValues : Obligations.ResetValues := by
  unfold Obligations.ResetValues
  refine ⟨⟨rfl, rfl, rfl, rfl⟩, ?_, ?_⟩
  · intro s hi
    rcases s.restart_cases with ⟨-, hr⟩ | ⟨hb, -⟩
    · exact ⟨_, hr, rfl, rfl, rfl, rfl, rfl⟩
    · exact absurd hi hb
  · intro s hb
    rcases s.restart_cases with ⟨hi, -⟩ | ⟨-, hr⟩
    · exact absurd hi hb
    · exact hr

end Sys2Proof.Machine

/-!
What a step does to the registers, the pin table and the response (10_state.md R20 to R36): the four shapes of a step,
each read off `step_inversion` once. The invariants of the machine and the rules of its registers then follow shape by
shape.
-/

namespace Sys2Proof.Machine

/-! ### The shapes of a step -/

/-- The instruction stands at `UPC` in the running micro-program (R130). -/
def StandsAtUpc (s : State) (i : Instr) : Prop := (programInstrs s.upc.prog)[s.upc.idx.toNat]? = some i

/-- `UNIT` and the pin registers are as before (R27, R28). -/
structure SameRegisters (s t : State) : Prop where
  unit : t.unit = s.unit
  pinCs : t.pinCs = s.pinCs
  pinClk : t.pinClk = s.pinClk
  pinDin : t.pinDin = s.pinDin

/-- `RESP` and `RESP_INFO` hold a response (R29). -/
def HoldsResponse (t : State) : Prop := ∃ r : Response, t.resp = r.word ∧ t.respInfo = r.info

/-- The lifecycle when a command ends (R26): as before, or Ready at RDY, or Released in a TEARDOWN. -/
inductive LifecycleAtEnd (s t : State) : Prop
  | kept (hp : s.upc.prog ≠ .tdP) (h : t.lifecycle = s.lifecycle)
  | ready (hb : s.busy) (hi : StandsAtUpc s .rdy) (h : t.lifecycle = .ready)
  | released (hp : s.upc.prog = .tdP) (h : t.lifecycle = .released)

/-- A command ends: by a response at its admission, by its last micro-operation, or by an exception. -/
structure Ends (s t : State) : Prop where
  upc : t.upc = ⟨.idle, 0#6⟩
  lifecycle : LifecycleAtEnd s t
  registers : t.lifecycle = .uninitialized ∨ SameRegisters s t
  pins : t.pins = s.pins
  response : HoldsResponse t

/-- The lifecycle state that admits a micro-program, with the pin registers it starts from (R110). -/
inductive Admits (s t : State) : Prog → Prop
  | init (hl : s.lifecycle = .uninitialized) (hd : pinsDistinct t.pinCs t.pinClk t.pinDin) : Admits s t .initP
  | read (hl : s.lifecycle = .ready) (hr : SameRegisters s t) : Admits s t .readP
  | teardown (hl : s.lifecycle = .ready) (hr : SameRegisters s t) : Admits s t .tdP

/-- An admitted command starts its micro-program (R110). -/
structure Starts (p : Prog) (s t : State) : Prop where
  upc : t.upc = ⟨p, 0#6⟩
  admits : Admits s t p
  lifecycle : t.lifecycle = s.lifecycle
  pins : t.pins = s.pins
  resp : t.resp = s.resp
  respInfo : t.respInfo = s.respInfo
  respValid : t.respValid = false

/-- The pin table after a micro-operation that goes on. -/
def pinsAfter (s : State) (i : Instr) : PinTable :=
  match microCall s i with
  | some c => c.effect s.pins
  | none => s.pins

/-- A micro-operation goes on to the next entry of its micro-program. -/
structure Advances (i : Instr) (s t : State) : Prop where
  upc : t.upc = ⟨s.upc.prog, s.upc.idx + 1⟩
  goesOn : endsCommand i = false
  lifecycle : t.lifecycle = s.lifecycle
  registers : SameRegisters s t
  pins : t.pins = pinsAfter s i
  raw : t.raw = if i = .clr then 0#12 else rawAfter s i
  fault : t.fault = if i = .clr then 0#1 else faultAfter s i
  resp : t.resp = s.resp
  respInfo : t.respInfo = s.respInfo
  respValid : t.respValid = s.respValid

/-- What a step that answers a next state can be. -/
inductive StepShape (s t : State) : Prop
  | waits (hi : s.upc.prog = .idle) (ht : t = s)
  | ends (h : Ends s t)
  | starts (p : Prog) (hi : s.upc.prog = .idle) (h : Starts p s t)
  | advances (i : Instr) (hb : s.busy) (hi : StandsAtUpc s i) (h : Advances i s t)

theorem SameRegisters.refl (s : State) : SameRegisters s s := ⟨rfl, rfl, rfl, rfl⟩

theorem SameRegisters.unchanged {s t : State} (h : SameRegisters s t) :
    t.unit = s.unit ∧ t.pinCs = s.pinCs ∧ t.pinClk = s.pinClk ∧ t.pinDin = s.pinDin :=
  ⟨h.unit, h.pinCs, h.pinClk, h.pinDin⟩

theorem StandsAtUpc.mem {s : State} {i : Instr} (h : StandsAtUpc s i) : i ∈ programInstrs s.upc.prog :=
  List.mem_of_getElem? h

theorem StandsAtUpc.lt_length {s : State} {i : Instr} (h : StandsAtUpc s i) :
    s.upc.idx.toNat < (programInstrs s.upc.prog).length :=
  (List.getElem?_eq_some_iff.mp h).1

/-- No entry of a micro-program is beyond what `UPC.idx` can count. -/
theorem StandsAtUpc.idx_succ {s : State} {i : Instr} (h : StandsAtUpc s i) :
    (s.upc.idx + 1).toNat = s.upc.idx.toNat + 1 := by
  have := h.lt_length
  have := programInstrs_length_lt s.upc.prog
  exact Machine.idx_succ (by omega)

/-- An admission, made while idle, ends the command at once or starts its micro-program (R110). -/
theorem AdmissionResult.shape {s t : State} {rest : List HostCmd} (hi : s.upc.prog = .idle)
    (h : AdmissionResult { s with hostProgram := rest } t) : StepShape s t := by
  have hp : s.upc.prog ≠ .tdP := by simp [hi]
  cases h with
  | invalidState ht =>
    subst ht
    exact .ends ⟨rfl, .kept hp (if_neg hp), .inr ⟨rfl, rfl, rfl, rfl⟩, rfl, ⟨.err .invalidState, rfl, rfl⟩⟩
  | illegalCommand ht =>
    subst ht
    exact .ends ⟨rfl, .kept hp (if_neg hp), .inr ⟨rfl, rfl, rfl, rfl⟩, rfl, ⟨.err .illegalCommand, rfl, rfl⟩⟩
  | alreadyReleased hl ht =>
    subst ht
    exact .ends ⟨rfl, .kept hp rfl, .inr ⟨rfl, rfl, rfl, rfl⟩, rfl, ⟨.ok, rfl, rfl⟩⟩
  | notDistinct u cs clk din hl ht =>
    subst ht
    exact .ends ⟨rfl, .kept hp (if_neg hp), .inl ((if_neg hp).trans hl), rfl, ⟨.err .pinNotDistinct, rfl, rfl⟩⟩
  | startInit u cs clk din hl hd ht =>
    subst ht
    exact .starts .initP hi ⟨rfl, .init hl hd, rfl, rfl, rfl, rfl, rfl⟩
  | startRead hl ht =>
    subst ht
    exact .starts .readP hi ⟨rfl, .read hl ⟨rfl, rfl, rfl, rfl⟩, rfl, rfl, rfl, rfl, rfl⟩
  | startTeardown hl ht =>
    subst ht
    exact .starts .tdP hi ⟨rfl, .teardown hl ⟨rfl, rfl, rfl, rfl⟩, rfl, rfl, rfl, rfl, rfl⟩

/-- The exception of a failed platform call leaves the lifecycle, but in a TEARDOWN (R206). -/
theorem lifecycleAtEnd_failed (s : State) (ev : Event) (x : Exc) : LifecycleAtEnd s ((s.answered ev).raise x) := by
  by_cases h : s.upc.prog = .tdP
  · exact .released h (if_pos h)
  · exact .kept h (if_neg h)

/-- An instruction that makes a platform call neither ends the command nor clears RAW. -/
theorem microCall_some {s : State} {i : Instr} {c : PlatCall} (h : microCall s i = some c) :
    endsCommand i = false ∧ i ≠ .clr := by
  cases i <;> simp_all [microCall, endsCommand]

/-- A micro-operation ends the command or goes on to the next entry (R131). -/
theorem MicroResult.shape {s t : State} {i : Instr} (hb : s.busy) (hi : StandsAtUpc s i) (h : MicroResult i s t) :
    StepShape s t := by
  cases h with
  | failed c e hc ha ht =>
    subst ht
    exact .ends ⟨rfl, lifecycleAtEnd_failed s _ _, .inr ⟨rfl, rfl, rfl, rfl⟩, rfl,
      ⟨.err (failureOf e i), rfl, rfl⟩⟩
  | called c hc ha ht =>
    subst ht
    obtain ⟨hgo, hclr⟩ := microCall_some hc
    exact .advances i hb hi ⟨rfl, hgo, rfl, ⟨rfl, rfl, rfl, rfl⟩, by simp only [afterCall, pinsAfter, hc],
      (if_neg hclr).symm, (if_neg hclr).symm, rfl, rfl, rfl⟩
  | waited k hk ht =>
    subst hk ht
    exact .advances _ hb hi ⟨rfl, rfl, rfl, ⟨rfl, rfl, rfl, rfl⟩, rfl, rfl, rfl, rfl, rfl, rfl⟩
  | cleared hk ht =>
    subst hk ht
    exact .advances _ hb hi ⟨rfl, rfl, rfl, ⟨rfl, rfl, rfl, rfl⟩, rfl, rfl, rfl, rfl, rfl, rfl⟩
  | ready hk ht =>
    subst hk ht
    exact .ends ⟨rfl, .ready hb hi rfl, .inr ⟨rfl, rfl, rfl, rfl⟩, rfl, ⟨.ok, rfl, rfl⟩⟩
  | released hk ht =>
    subst hk ht
    exact .ends ⟨rfl, .released (rls_only_in_tdP hi.mem) rfl, .inr ⟨rfl, rfl, rfl, rfl⟩, rfl, ⟨.ok, rfl, rfl⟩⟩
  | faulted hk hf ht =>
    subst hk ht
    have hp : s.upc.prog ≠ .tdP := by simp [conv_only_in_readP hi.mem]
    exact .ends ⟨rfl, .kept hp rfl, .inr ⟨rfl, rfl, rfl, rfl⟩, rfl, ⟨.fault, rfl, rfl⟩⟩
  | converted hk hf ht =>
    subst hk ht
    have hp : s.upc.prog ≠ .tdP := by simp [conv_only_in_readP hi.mem]
    exact .ends ⟨rfl, .kept hp rfl, .inr ⟨rfl, rfl, rfl, rfl⟩, rfl, ⟨.value _, rfl, rfl⟩⟩

/-- Every step that answers a next state has one of the four shapes. -/
theorem step_shape {s t : State} (h : step s = .next t) : StepShape s t := by
  rcases step_inversion h with ⟨hi, ht⟩ | ⟨hi, rest, ha⟩ | ⟨hb, i, hi, hm⟩
  · exact .waits hi ht
  · exact ha.shape hi
  · exact hm.shape hb hi

/-! ### `UPC` -/

/-- An instruction that goes on is not the last of its micro-program. -/
theorem StandsAtUpc.succ_lt_length {s : State} {i : Instr} (h : StandsAtUpc s i) (hgo : endsCommand i = false) :
    s.upc.idx.toNat + 1 < (programInstrs s.upc.prog).length := by
  have hlast := endsCommand_iff_last s.upc.prog _ h.lt_length
  rw [h, Option.map_some, hgo, Option.some.injEq, eq_comm, decide_eq_false_iff_not] at hlast
  have := h.lt_length
  omega

theorem upcLegal_of_idle {t : State} (h : t.upc = ⟨.idle, 0#6⟩) : UpcLegal t :=
  ⟨fun _ => by rw [h], fun hb => absurd (by rw [h]) hb⟩

/-- Every micro-program has a first entry (R150 to R152). -/
theorem Admits.rom_nonempty {s t : State} {p : Prog} (h : Admits s t p) : p ≠ .idle ∧ 0 < (rom p).length := by
  cases h <;> decide

/-- Settles O40, by the shape of the step: an entry that goes on is not the last one. -/
theorem stepKeepsUpcLegal : Obligations.StepKeepsUpcLegal := by
  intro s t hs hstep
  cases step_shape hstep with
  | waits _ ht => rwa [ht]
  | ends h => exact upcLegal_of_idle h.upc
  | starts p _ h =>
    obtain ⟨hne, hlen⟩ := h.admits.rom_nonempty
    simpa [UpcLegal, h.upc, hne] using hlen
  | advances i hb hi h =>
    have hlt := hi.succ_lt_length h.goesOn
    rw [← rom_length, ← hi.idx_succ] at hlt
    simpa only [UpcLegal, h.upc] using ⟨fun hidle => absurd hidle hb, fun _ => hlt⟩

/-! ### The lifecycle -/

/-- `RDY` is the last entry of `InitP` and stands nowhere else (R150). -/
theorem rdy_place : ∀ p : Prog, ∀ n < (programInstrs p).length,
    (programInstrs p)[n]? = some .rdy → p = .initP ∧ n = 3 := by
  intro p
  cases p <;> decide

theorem StandsAtUpc.rdy {s : State} (h : StandsAtUpc s .rdy) : s.upc.prog = .initP ∧ s.upc.idx.toNat = 3 :=
  rdy_place _ _ h.lt_length h

theorem SameRegisters.distinct_iff {s t : State} (h : SameRegisters s t) :
    pinsDistinct t.pinCs t.pinClk t.pinDin ↔ pinsDistinct s.pinCs s.pinClk s.pinDin := by
  rw [h.pinCs, h.pinClk, h.pinDin]

/-- A controller that is Ready when a command ends was Ready before, or ends an INIT. -/
theorem Ends.ready_before {s t : State} (h : Ends s t) (hr : t.lifecycle = .ready) :
    SameRegisters s t ∧ ((s.lifecycle = .ready ∧ s.upc.prog ≠ .tdP) ∨ (s.busy ∧ StandsAtUpc s .rdy)) := by
  refine ⟨h.registers.resolve_left (by simp [hr]), ?_⟩
  cases h.lifecycle with
  | kept hp hl => exact .inl ⟨hl.symm.trans hr, hp⟩
  | ready hb hi _ => exact .inr ⟨hb, hi⟩
  | released _ hl => simp [hr] at hl

/-- Settles O41, by the shape of the step. -/
theorem stepKeepsLifecycleLegal : Obligations.StepKeepsLifecycleLegal := by
  rintro s t ⟨hinit, hready, hdist⟩ hstep
  cases step_shape hstep with
  | waits _ ht => exact ht ▸ ⟨hinit, hready, hdist⟩
  | ends h =>
    refine ⟨by simp [h.upc], by simp [h.upc], ?_⟩
    rintro (hr | hp)
    · obtain ⟨hsame, hbefore⟩ := h.ready_before hr
      rw [hsame.distinct_iff]
      exact hdist (hbefore.imp And.left fun ⟨_, hi⟩ => hi.rdy.1)
    · simp [h.upc] at hp
  | starts p _ h =>
    unfold LifecycleLegal
    rw [h.upc, h.lifecycle]
    cases h.admits with
    | init hl hd => simpa [hl] using hd
    | read hl hr => simpa [hl, hr.distinct_iff] using hdist (.inl hl)
    | teardown hl hr => simpa [hl, hr.distinct_iff] using hdist (.inl hl)
  | advances i _ _ h =>
    unfold LifecycleLegal
    rw [h.upc, h.lifecycle, h.registers.distinct_iff]
    exact ⟨hinit, hready, hdist⟩

/-- Settles O47, by the shape of the step: only the end of a command has an edge. -/
theorem lifecycleEdges : Obligations.LifecycleEdges := by
  rintro s t ⟨hinit, hready, -⟩ hstep
  cases step_shape hstep with
  | waits _ ht => exact .inl (by rw [ht])
  | ends h =>
    cases h.lifecycle with
    | kept _ hl => exact .inl hl
    | ready _ hi hl => exact .inr (.inl ⟨hinit hi.rdy.1, hl, hi.rdy.1⟩)
    | released hp hl => exact .inr (.inr ⟨hready (.inr hp), hl, hp⟩)
  | starts p _ h => exact .inl h.lifecycle
  | advances i _ _ h => exact .inl h.lifecycle

/-! ### The pin table -/

/-- A micro-operation keeps the canonical form of the pin table and its base. -/
theorem pinsAfter_wf {s : State} (h : s.pins.wf = true) (i : Instr) :
    (pinsAfter s i).wf = true ∧ (pinsAfter s i).base = s.pins.base := by
  unfold pinsAfter
  split
  · exact ⟨PlatCall.effect_wf h _, PlatCall.effect_base _ _⟩
  · exact ⟨h, rfl⟩

theorem step_keeps_pins_wf {s t : State} (hs : s.pins.wf = true) (hstep : step s = .next t) :
    t.pins.wf = true ∧ t.pins.base = s.pins.base := by
  cases step_shape hstep with
  | waits _ ht => simp [ht, hs]
  | ends h => simp [h.pins, hs]
  | starts p _ h => simp [h.pins, hs]
  | advances i _ _ h => simpa only [h.pins] using pinsAfter_wf hs i

/-- Entries whose labels rise: a pin is listed with the entry that is found for it. -/
theorem mem_iff_find {l : List (PinId × PinState)} (h : l.Pairwise fun a b => a.1.label < b.1.label)
    (p : PinId) (x : PinState) : (p, x) ∈ l ↔ PinTable.find l p = some x := by
  induction l with
  | nil => simp [PinTable.find]
  | cons c rest ih =>
    obtain ⟨q, y⟩ := c
    obtain ⟨hlt, hrest⟩ := List.pairwise_cons.mp h
    by_cases hq : q = p
    · subst hq
      have hnot : (q, x) ∉ rest := fun hm => lt_irrefl _ (hlt (q, x) hm)
      simp [PinTable.find, hnot, eq_comm]
    · simp [PinTable.find, hq, Ne.symm hq, ih hrest]

/-- A canonical table lists a pin exactly with the entry it holds, where that is not the entry of its base. -/
theorem mem_entries_iff {t : PinTable} (h : t.wf = true) (p : PinId) (x : PinState) :
    (p, x) ∈ t.entries ↔ t.get p = x ∧ x ≠ t.base.entry p := by
  obtain ⟨hrising, hbase⟩ := t.wf_iff.mp h
  have hmem := mem_iff_find hrising p
  constructor
  · intro hx
    exact ⟨by simp [PinTable.get, (hmem x).mp hx], hbase _ hx⟩
  · rintro ⟨hget, hne⟩
    rw [hmem]
    unfold PinTable.get at hget
    cases hf : PinTable.find t.entries p with
    | none => exact absurd (by simpa [hf] using hget.symm) hne
    | some y => simpa [hf] using hget

/-- Lists of entries whose labels rise are equal if they list the same. -/
theorem entries_ext {l m : List (PinId × PinState)} (hl : l.Pairwise fun a b => a.1.label < b.1.label)
    (hm : m.Pairwise fun a b => a.1.label < b.1.label) (h : ∀ c, c ∈ l ↔ c ∈ m) : l = m := by
  have : Std.Irrefl fun a b : PinId × PinState => a.1.label < b.1.label := ⟨fun _ => lt_irrefl _⟩
  have : Std.Antisymm fun a b : PinId × PinState => a.1.label < b.1.label :=
    ⟨fun _ _ hab hba => absurd hab (lt_asymm hba)⟩
  exact hl.eq_of_mem_iff hm h

theorem pinTable_ext {t u : PinTable} (ht : t.wf = true) (hu : u.wf = true) (hb : t.base = u.base)
    (hget : ∀ p, t.get p = u.get p) : t = u := by
  have hentries : t.entries = u.entries := by
    refine entries_ext (t.wf_iff.mp ht).1 (u.wf_iff.mp hu).1 fun ⟨p, x⟩ => ?_
    rw [mem_entries_iff ht, mem_entries_iff hu, hget, hb]
  cases t
  cases u
  simp_all

/-- Settles O39: the entries of a canonical table are fixed by what it reads. -/
theorem stepKeepsPinTableCanonical : Obligations.StepKeepsPinTableCanonical :=
  ⟨fun _ _ hs hstep => step_keeps_pins_wf hs hstep, fun _ _ ht hu hb hget => pinTable_ext ht hu hb hget⟩

/-! ### The directions of the three pins -/

/-- The level a micro-operation writes to chip-select. -/
def csWritten : Instr → Option Level
  | .csl => some .low
  | .csh => some .high
  | _ => none

/-- The level a micro-operation writes to clock. -/
def clkWritten : Instr → Option Level
  | .ckl => some .low
  | .ckh => some .high
  | _ => none

/-- What a pin holds after a possible write to it. -/
def writtenOr (w : Option Level) (x : PinState) : PinState :=
  match w with
  | some l => .out l
  | none => x

/-- A micro-operation of a READ writes chip-select or clock, or leaves the three pins as they are (R151). -/
theorem pinsAfter_read {s : State} {i : Instr} (hi : i ∈ programInstrs .readP)
    (hd : pinsDistinct s.pinCs s.pinClk s.pinDin) :
    (pinsAfter s i).get s.pinCs = writtenOr (csWritten i) (s.pins.get s.pinCs) ∧
    (pinsAfter s i).get s.pinClk = writtenOr (clkWritten i) (s.pins.get s.pinClk) ∧
    (pinsAfter s i).get s.pinDin = s.pins.get s.pinDin := by
  obtain ⟨hcc, hcd, hkd⟩ := hd
  cases i with
  | cfg r d l => exact absurd (cfg_only_in_initP hi) (by decide)
  | rel r => exact absurd (rel_only_in_tdP hi) (by decide)
  | _ => simp [pinsAfter, microCall, PlatCall.effect, PinTable.get_put, csWritten, clkWritten, writtenOr,
      hcc, hcd.symm, hkd.symm, hcc.symm]

/-- Chip-select and clock are outputs, data-in is an input (R35). -/
def DirectionsSet (s : State) : Prop :=
  (∃ l, s.pins.get s.pinCs = .out l) ∧ (∃ l, s.pins.get s.pinClk = .out l) ∧ s.pins.get s.pinDin = .inp

theorem DirectionsSet.of_same {s t : State} (h : DirectionsSet s) (hr : SameRegisters s t) (hp : t.pins = s.pins) :
    DirectionsSet t := by
  simpa only [DirectionsSet, hr.pinCs, hr.pinClk, hr.pinDin, hp] using h

theorem writtenOr_out {w : Option Level} {x : PinState} (h : ∃ l, x = .out l) : ∃ l, writtenOr w x = .out l := by
  cases w with
  | none => exact h
  | some l => exact ⟨l, rfl⟩

theorem DirectionsSet.read_step {s t : State} {i : Instr} (h : DirectionsSet s) (hi : i ∈ programInstrs .readP)
    (hd : pinsDistinct s.pinCs s.pinClk s.pinDin) (ha : Advances i s t) : DirectionsSet t := by
  obtain ⟨hcs, hclk, hdin⟩ := h
  obtain ⟨hcs', hclk', hdin'⟩ := pinsAfter_read hi hd
  unfold DirectionsSet
  rw [ha.pins, ha.registers.pinCs, ha.registers.pinClk, ha.registers.pinDin, hcs', hclk', hdin']
  exact ⟨writtenOr_out hcs, writtenOr_out hclk, hdin⟩

/-- The pins that `InitP` has configured when it stands before entry `n` (R150). -/
def ConfiguredBefore (s : State) (n : Nat) : Prop :=
  (1 ≤ n → s.pins.get s.pinCs = .out .high) ∧ (2 ≤ n → s.pins.get s.pinClk = .out .low) ∧
  (3 ≤ n → s.pins.get s.pinDin = .inp)

/-- The pin directions of a controller, as what an INIT has configured so far and what a Ready one holds. -/
theorem pinsConfigured_iff (s : State) : PinsConfigured s ↔
    (s.upc.prog = .initP → ConfiguredBefore s s.upc.idx.toNat) ∧
    (s.lifecycle = .ready → s.upc.prog ≠ .tdP → DirectionsSet s) := by
  unfold PinsConfigured ConfiguredBefore DirectionsSet
  tauto

theorem ConfiguredBefore.directionsSet {s : State} (h : ConfiguredBefore s 3) : DirectionsSet s :=
  ⟨⟨_, h.1 (by decide)⟩, ⟨_, h.2.1 (by decide)⟩, h.2.2 le_rfl⟩

/-- The configurations of `InitP`, entry by entry (R150). -/
theorem initP_entry {n : Nat} {i : Instr} (h : (programInstrs .initP)[n]? = some i) (hgo : endsCommand i = false) :
    (n = 0 ∧ i = .cfg .cs .out .high) ∨ (n = 1 ∧ i = .cfg .clk .out .low) ∨ (n = 2 ∧ i = .cfg .din .inp .low) := by
  match n, h with
  | 0, h | 1, h | 2, h => simp_all [programInstrs]
  | 3, h => cases h; cases hgo

/-- Each configuration of `InitP` sets its pin and leaves those set before. -/
theorem ConfiguredBefore.init_step {s t : State} {i : Instr} (h : ConfiguredBefore s s.upc.idx.toNat)
    (hi : (programInstrs .initP)[s.upc.idx.toNat]? = some i) (hd : pinsDistinct s.pinCs s.pinClk s.pinDin)
    (ha : Advances i s t) : ConfiguredBefore t (s.upc.idx.toNat + 1) := by
  obtain ⟨hcs, hclk, -⟩ := h
  obtain ⟨hcc, hcd, hkd⟩ := hd
  unfold ConfiguredBefore
  rw [ha.pins, ha.registers.pinCs, ha.registers.pinClk, ha.registers.pinDin]
  rcases initP_entry hi ha.goesOn with ⟨hn, rfl⟩ | ⟨hn, rfl⟩ | ⟨hn, rfl⟩ <;>
    simp_all [pinsAfter, microCall, PlatCall.effect, PinTable.get_put, State.pin, setupOf, PinSetup.state]

/-- Settles O42, by the shape of the step: an INIT sets one more direction, a READ keeps all three. -/
theorem stepKeepsPinsConfigured : Obligations.StepKeepsPinsConfigured := by
  rintro s t ⟨hinit, hready, hdist⟩ hs hstep
  obtain ⟨hsofar, hset⟩ := (pinsConfigured_iff s).mp hs
  rw [pinsConfigured_iff]
  cases step_shape hstep with
  | waits _ ht => exact ht ▸ ⟨hsofar, hset⟩
  | ends h =>
    refine ⟨by simp [h.upc], fun hr _ => ?_⟩
    obtain ⟨hsame, ⟨hl, hp⟩ | ⟨-, hi⟩⟩ := h.ready_before hr
    · exact (hset hl hp).of_same hsame h.pins
    · have hcfg := hsofar hi.rdy.1
      rw [hi.rdy.2] at hcfg
      exact hcfg.directionsSet.of_same hsame h.pins
  | starts p hidle h =>
    rw [h.upc, h.lifecycle]
    cases h.admits with
    | init hl _ => simp [hl, ConfiguredBefore]
    | read hl hr => exact ⟨by simp, fun _ _ => (hset hl (by simp [hidle])).of_same hr h.pins⟩
    | teardown => simp
  | advances i hb hi h =>
    rw [h.upc, h.lifecycle]
    cases hp : s.upc.prog with
    | idle => exact absurd hp hb
    | initP =>
      refine ⟨fun _ => ?_, fun hl => by simp [hinit hp] at hl⟩
      have hi' := hi
      rw [StandsAtUpc, hp] at hi'
      rw [hi.idx_succ]
      exact (hsofar hp).init_step hi' (hdist (.inr hp)) h
    | readP =>
      refine ⟨by simp, fun hl _ => ?_⟩
      exact (hset hl (by simp [hp])).read_step (hp ▸ hi.mem) (hdist (.inl hl)) h
    | tdP => simp

/-! ### RAW and FAULT during a READ -/

/-- The sample that `ReadP` makes at entry `n` is of the bit that `samplesDone` counts next (R151). -/
theorem smpd_place : ∀ n < 55, ∀ k : Fin 12, (programInstrs .readP)[n]? = some (.smpd k) →
    12 - samplesDone (n + 1) ≤ k.val := by
  decide

theorem readP_length : (programInstrs .readP).length = 55 := by decide

theorem smpf_place : ∀ n < 55, (programInstrs .readP)[n]? = some .smpf → n = 45 := by decide

theorem samplesDone_mono (n : Nat) : samplesDone n ≤ samplesDone (n + 1) := by
  unfold samplesDone
  omega

/-- RAW after an instruction of a READ other than `CLR`: the bits not yet sampled stay 0 (R161, R164). -/
theorem rawAfter_unsampled {s : State} {i : Instr} {n m : Nat}
    (hraw : ∀ j < 12 - n, s.raw.getLsbD j = false) (hnm : n ≤ m) (hi : ∀ k, i = .smpd k → 12 - m ≤ k.val) :
    ∀ j < 12 - m, (rawAfter s i).getLsbD j = false := by
  intro j hj
  have hj' : s.raw.getLsbD j = false := hraw j (by omega)
  cases i with
  | smpd k =>
    have hk := hi k rfl
    have hne : (⟨j, by omega⟩ : Fin 12) ≠ k := fun he => by
      have : j = k.val := congrArg Fin.val he
      omega
    exact (setRawBit_get s.raw k ⟨j, by omega⟩ s.dinAnswer).trans ((if_neg hne).trans hj')
  | _ => exact hj'

theorem faultAfter_of_ne_smpf {s : State} {i : Instr} (h : i ≠ .smpf) : faultAfter s i = s.fault := by
  cases i with
  | smpf => exact absurd rfl h
  | _ => rfl

/-- Every step keeps the unsampled bits of RAW, and FAULT before its sample, at 0 during a READ (R164). -/
theorem step_keeps_unsampledZero {s t : State} (hs : UnsampledZero s) (hstep : step s = .next t) :
    UnsampledZero t := by
  cases step_shape hstep with
  | waits _ ht => rwa [ht]
  | ends h => simp [UnsampledZero, h.upc]
  | starts p _ h => simp [UnsampledZero, h.upc]
  | advances i _ hi h =>
    unfold UnsampledZero
    rw [h.upc, h.raw, h.fault]
    intro hp _
    replace hp : s.upc.prog = .readP := hp
    rw [hi.idx_succ]
    by_cases hclr : i = .clr
    · simp [hclr]
    · have hlt : s.upc.idx.toNat < 55 := by simpa only [hp, readP_length] using hi.lt_length
      rw [if_neg hclr, if_neg hclr]
      rw [StandsAtUpc, hp] at hi
      have hpos : 1 ≤ s.upc.idx.toNat := by
        by_contra h0
        rw [show s.upc.idx.toNat = 0 by omega] at hi
        exact hclr (Option.some.inj hi).symm
      obtain ⟨hraw, hfault⟩ := hs hp hpos
      refine ⟨rawAfter_unsampled hraw (samplesDone_mono _) ?_, fun hle => ?_⟩
      · rintro k rfl
        exact smpd_place _ hlt k hi
      · rw [faultAfter_of_ne_smpf, hfault (by omega)]
        rintro rfl
        have := smpf_place _ hlt hi
        omega

/-! ### The levels of chip-select and clock during a READ -/

/-- The levels that R151 fixes are those of the last writes before an entry. -/
theorem readP_levels : ∀ n < 55,
    csLevelAt (n + 1) = (((programInstrs .readP)[n]?).bind csWritten).or (csLevelAt n) ∧
    clkLevelAt (n + 1) = (((programInstrs .readP)[n]?).bind clkWritten).or (clkLevelAt n) := by
  decide

/-- A pin that stands at the level fixed so far, where one is, does so after a possible write. -/
theorem writtenOr_level {w before : Option Level} {x : PinState} (h : ∀ l, before = some l → x = .out l) (l : Level)
    (hl : w.or before = some l) : writtenOr w x = .out l := by
  cases w with
  | none => exact h l hl
  | some l' => cases hl; rfl

/-- Every step keeps chip-select and clock at the levels `ReadP` has written (R151, R153, R207). -/
theorem step_keeps_readLevels {s t : State} (hlegal : LifecycleLegal s) (hs : ReadLevels s)
    (hstep : step s = .next t) : ReadLevels t := by
  obtain ⟨-, hready, hdist⟩ := hlegal
  cases step_shape hstep with
  | waits _ ht => rwa [ht]
  | ends h => simp [ReadLevels, h.upc]
  | starts p _ h => simp [ReadLevels, h.upc, csLevelAt, clkLevelAt]
  | advances i _ hi h =>
    unfold ReadLevels
    rw [h.upc, h.pins, h.registers.pinCs, h.registers.pinClk]
    intro hp
    replace hp : s.upc.prog = .readP := hp
    obtain ⟨hcs, hclk⟩ := hs hp
    obtain ⟨hcs', hclk', -⟩ := pinsAfter_read (hp ▸ hi.mem) (hdist (.inl (hready (.inl hp))))
    have hlt : s.upc.idx.toNat < 55 := by simpa only [hp, readP_length] using hi.lt_length
    obtain ⟨hcsAt, hclkAt⟩ := readP_levels _ hlt
    rw [hi.idx_succ, hcs', hclk', hcsAt, hclkAt]
    rw [StandsAtUpc, hp] at hi
    rw [hi]
    exact ⟨writtenOr_level hcs, writtenOr_level hclk⟩

/-! ### The response -/

/-- Every response is a word of format R with the side value that goes with it (R95, R200). -/
theorem HoldsResponse.legal {t : State} (h : HoldsResponse t) : RespLegal t := by
  obtain ⟨r, hw, hi⟩ := h
  unfold RespLegal
  rw [hw, hi]
  cases r with
  | ok => exact .inl ⟨rfl, rfl⟩
  | value v => exact .inr (.inl ⟨v, rfl, rfl⟩)
  | fault => exact .inr (.inr (.inl ⟨rfl, rfl⟩))
  | err x =>
    refine .inr (.inr (.inr ?_))
    cases x with
    | pinNotDistinct => exact .inl ⟨rfl, .inl rfl⟩
    | pinConfig r e => exact .inl ⟨rfl, .inr ⟨r, e, rfl⟩⟩
    | pinIO e => exact .inr (.inl ⟨rfl, e, rfl⟩)
    | invalidState => exact .inr (.inr (.inl ⟨rfl, rfl⟩))
    | illegalCommand => exact .inr (.inr (.inr ⟨rfl, rfl⟩))

/-- Settles O45, by the shape of the step: a step writes a response or leaves `RESP` alone. -/
theorem stepKeepsRespLegal : Obligations.StepKeepsRespLegal := by
  intro s t hs hstep
  cases step_shape hstep with
  | waits _ ht => rwa [ht]
  | ends h => exact h.response.legal
  | starts p _ h => simpa only [RespLegal, h.resp, h.respInfo] using hs
  | advances i _ _ h => simpa only [RespLegal, h.resp, h.respInfo] using hs

/-- Settles O51, by the shape of the step: after a wait or the end of a command the controller is idle. -/
theorem responseOnlyAtTheEnd : Obligations.ResponseOnlyAtTheEnd := by
  intro s t hstep hbusy
  cases step_shape hstep with
  | waits hidle ht => exact absurd hidle (ht ▸ hbusy)
  | ends h => exact absurd (by rw [h.upc]) hbusy
  | starts p hidle h => exact ⟨h.resp, h.respInfo, fun hb => absurd hidle hb, fun _ => h.respValid⟩
  | advances i hb _ h => exact ⟨h.resp, h.respInfo, fun _ => h.respValid, fun hidle => absurd hidle hb⟩

/-! ### The whole invariant -/

/-- Settles O38: each part of the invariant is kept, given the parts it rests on. -/
theorem stepKeepsInv : Obligations.StepKeepsInv := by
  intro s t hs hstep
  exact {
    pins := (step_keeps_pins_wf hs.pins hstep).1
    upc := stepKeepsUpcLegal s t hs.upc hstep
    lifecycle := stepKeepsLifecycleLegal s t hs.lifecycle hstep
    configured := stepKeepsPinsConfigured s t hs.lifecycle hs.configured hstep
    unsampled := step_keeps_unsampledZero hs.unsampled hstep
    levels := step_keeps_readLevels hs.lifecycle hs.levels hstep
    resp := stepKeepsRespLegal s t hs.resp hstep }

/-- An idle, uninitialized controller that holds a response meets the invariant over any canonical table. -/
theorem inv_of_uninitialized {t : State} (hp : t.pins.wf = true) (hu : t.upc = ⟨.idle, 0#6⟩)
    (hl : t.lifecycle = .uninitialized) (hr : HoldsResponse t) : Inv t where
  pins := hp
  upc := upcLegal_of_idle hu
  lifecycle := by simp [LifecycleLegal, hu, hl]
  configured := by simp [PinsConfigured, hu, hl]
  unsampled := by simp [UnsampledZero, hu]
  levels := by simp [ReadLevels, hu]
  resp := hr.legal

/-- Settles O37: reset and the start of a further run leave the controller idle and uninitialized. -/
theorem resetMeetsInv : Obligations.ResetMeetsInv := by
  refine ⟨inv_of_uninitialized (PinTable.wf_nil _) rfl rfl ⟨.ok, rfl, rfl⟩, fun s t hs hr => ?_⟩
  rcases s.restart_cases with ⟨-, h⟩ | ⟨-, h⟩ <;> rw [h] at hr <;> cases hr
  exact inv_of_uninitialized hs rfl rfl ⟨.ok, rfl, rfl⟩

/-- Settles O36, by the two starts of a run. -/
theorem resetChoices : Obligations.ResetChoices := by
  refine ⟨fun s t ht => ?_, fun p => rfl, PinTable.wf_nil _⟩
  rcases ht with ht | hr
  · simp [ht, State.reset]
  · rcases s.restart_cases with ⟨-, h⟩ | ⟨-, h⟩ <;> rw [h] at hr <;> cases hr
    simp [State.reset]

/-! ### `UNIT` and the pin registers -/

/-- A word with the fields of an INIT is one of three (R85, R86). -/
theorem initWord_of_fields {w : Byte} {u : TempUnit} (hop : (w.extractLsb' 6 2).toNat = 0)
    (hunit : (w.extractLsb' 4 2).toNat = u.code.toNat) (hlow : (w.extractLsb' 0 4).toNat = 0) :
    w ∈ [0x00#8, 0x10#8, 0x20#8] ∧ u.code = w.extractLsb' 4 2 := by
  have hw : w.toNat = 16 * u.code.toNat := by
    have := w.isLt
    simp only [BitVec.extractLsb'_toNat, Nat.shiftRight_eq_div_pow] at hop hunit hlow
    omega
  refine ⟨?_, (BitVec.eq_of_toNat_eq hunit).symm⟩
  cases u with
  | raw => simp [BitVec.eq_of_toNat_eq (y := 0x00#8) hw]
  | celsius => simp [BitVec.eq_of_toNat_eq (y := 0x10#8) hw]
  | fahrenheit => simp [BitVec.eq_of_toNat_eq (y := 0x20#8) hw]

/-- A word that selects INIT has the unit in bits [5:4] and zeros elsewhere (R85, R92). -/
theorem decodeOp_init {w : Byte} {u : TempUnit} (h : decodeOp w = .ok (.init u)) :
    w ∈ [0x00#8, 0x10#8, 0x20#8] ∧ u.code = w.extractLsb' 4 2 := by
  unfold decodeOp at h
  split at h <;> cases h <;> exact initWord_of_fields ‹_› ‹_› ‹_›

theorem admitRead_sameRegisters (s : State) : SameRegisters s s.admitRead := by
  unfold State.admitRead
  split <;> exact ⟨rfl, rfl, rfl, rfl⟩

theorem admitTeardown_sameRegisters (s : State) : SameRegisters s s.admitTeardown := by
  unfold State.admitTeardown
  split <;> exact ⟨rfl, rfl, rfl, rfl⟩

theorem admitReserved_sameRegisters (s : State) : SameRegisters s s.admitReserved := ⟨rfl, rfl, rfl, rfl⟩

/-- INIT writes its unit and operands, or finds the controller initialized and writes none of them (R110). -/
theorem admitInit_registers (s : State) (u : TempUnit) (cs clk din : PinId) :
    SameRegisters s (s.admitInit u cs clk din) ∨
    (s.lifecycle = .uninitialized ∧ SameRegisters { s with unit := u, pinCs := cs, pinClk := clk, pinDin := din }
      (s.admitInit u cs clk din)) := by
  by_cases hl : s.lifecycle = .uninitialized
  · refine .inr ⟨hl, ?_⟩
    by_cases hd : pinsDistinct cs clk din
    · rw [State.admitInit_uninitialized hl u hd]
      exact ⟨rfl, rfl, rfl, rfl⟩
    · rw [State.admitInit_notDistinct hl u hd]
      exact ⟨rfl, rfl, rfl, rfl⟩
  · rw [State.admitInit_invalid hl]
    exact .inl ⟨rfl, rfl, rfl, rfl⟩

/-- An INIT word with its operands, executed while idle, is the admission of INIT with that unit. -/
theorem exec_init {s : State} (hi : s.upc.prog = .idle) (u : TempUnit) (c : HostCmd) :
    exec (hostInstr (.init u) c) s = .next (s.admitInit u c.cs c.clk c.din) := by
  cases u <;> exact whileIdle_of_idle hi _

theorem MicroResult.sameRegisters {i : Instr} {s t : State} (h : MicroResult i s t) : SameRegisters s t := by
  cases h <;> subst_vars <;> exact ⟨rfl, rfl, rfl, rfl⟩

theorem decodeH_inversion {c : HostCmd} {i : Instr} (h : decodeH c = .ok i) :
    ∃ op, decodeOp c.word = .ok op ∧ i = hostInstr op c := by
  rw [decodeH] at h
  split at h
  · cases h
    exact ⟨_, ‹_›, rfl⟩
  · cases h

/-- The admission of a command keeps `UNIT` and the pin registers, or it is that of an INIT word in an uninitialized
controller, whose unit and operands they then hold (R110, R111). -/
theorem command_registers {s t : State} {c : HostCmd} {i : Instr} (hi : s.upc.prog = .idle) (hd : decodeH c = .ok i)
    (hx : exec i s = .next t) : SameRegisters s t ∨
      (s.lifecycle = .uninitialized ∧ c.word ∈ [0x00#8, 0x10#8, 0x20#8] ∧ t.unit.code = c.word.extractLsb' 4 2 ∧
        t.pinCs = c.cs ∧ t.pinClk = c.clk ∧ t.pinDin = c.din) := by
  obtain ⟨op, hop, rfl⟩ := decodeH_inversion hd
  cases op with
  | init u =>
    rw [exec_init hi] at hx
    cases hx
    obtain ⟨hword, hcode⟩ := decodeOp_init hop
    refine (admitInit_registers s u c.cs c.clk c.din).imp_right fun ⟨hl, hr⟩ => ?_
    exact ⟨hl, hword, hr.unit ▸ hcode, hr.pinCs, hr.pinClk, hr.pinDin⟩
  | read =>
    cases (whileIdle_of_idle hi _).symm.trans hx
    exact .inl (admitRead_sameRegisters s)
  | teardown =>
    cases (whileIdle_of_idle hi _).symm.trans hx
    exact .inl (admitTeardown_sameRegisters s)

/-- Settles O48, by what the step executes: only the admission of INIT writes these registers. -/
theorem unitAndPinsAreImmutable : Obligations.UnitAndPinsAreImmutable := by
  intro s t hstep
  rcases step_cases hstep with ⟨-, -, ht⟩ | ⟨c, rest, i, hi, hh, hd, hx⟩ | ⟨c, rest, e, -, -, -, ht⟩ | ⟨i, hb, -, hx⟩
  · exact .inl (ht ▸ (SameRegisters.refl s).unchanged)
  · rcases command_registers (s := { s with hostProgram := rest }) hi hd hx with hr | ⟨hl, hinit⟩
    · exact .inl hr.unchanged
    · exact .inr ⟨hi, hl, c, rest, hh, hinit⟩
  · exact .inl (ht ▸ (admitReserved_sameRegisters { s with hostProgram := rest }).unchanged)
  · exact .inl (exec_busy_inversion hb hx).sameRegisters.unchanged

/-! ### Micro-programs end -/

/-- A step of a running micro-program ends the command or goes on to the next entry (R131). -/
theorem busy_step_upc {s t : State} (hb : s.busy) (hstep : step s = .next t) :
    t.upc = ⟨.idle, 0#6⟩ ∨ (t.upc.prog = s.upc.prog ∧ t.upc.idx.toNat = s.upc.idx.toNat + 1) := by
  cases step_shape hstep with
  | waits hi _ => exact absurd hi hb
  | ends h => exact .inl h.upc
  | starts p hi _ => exact absurd hi hb
  | advances i _ hi h => exact .inr (by rw [h.upc]; exact ⟨rfl, hi.idx_succ⟩)

/-- A micro-program with `n` entries left ends in `n` steps, by induction on `n` (R131). -/
theorem runToIdle_ends {n : Nat} {s : State} (hs : UpcLegal s) (hb : s.busy)
    (hn : n = (rom s.upc.prog).length - s.upc.idx.toNat) :
    ∃ t, runToIdle n s = .next t ∧ t.upc = ⟨.idle, 0#6⟩ := by
  induction n generalizing s with
  | zero =>
    have := hs.2 hb
    omega
  | succ n ih =>
    obtain ⟨t, hstep⟩ := legalUpcNeverStops s hs
    rw [runToIdle_of_step hb hstep]
    rcases busy_step_upc hb hstep with hidle | ⟨hprog, hidx⟩
    · exact ⟨t, runToIdle_of_idle (by rw [hidle]) n, hidle⟩
    · have hbt : t.busy := by rwa [State.busy, hprog]
      exact ih (stepKeepsUpcLegal s t hs hstep) hbt (by rw [hprog, hidx]; omega)

/-- Settles O52: the entries left bound the steps. -/
theorem microProgramsEnd : Obligations.MicroProgramsEnd := fun _ hs hb => runToIdle_ends hs hb rfl

end Sys2Proof.Machine

/-!
One platform call of a micro-operation (20_memory.md R54, R55): what it leaves when it succeeds and when it fails, for
every calling micro-operation at once, and what a step does to the pins and to the trace.
-/

namespace Sys2Proof.Machine

/-! ### A calling micro-operation -/

/-- A micro-operation whose call succeeds leaves the state of that call, with what it samples written (R54). -/
theorem MicroResult.eq_of_succeeds {i : Instr} {s t : State} {c : PlatCall} (h : MicroResult i s t)
    (hc : microCall s i = some c) (ha : s.platformAnswer c = none) :
    t = { afterCall s (c.event s.dinAnswer) (c.effect s.pins) with
      raw := rawAfter s i, fault := faultAfter s i, dinScript := dinScriptAfter s i } := by
  cases h with
  | called c' hc' _ ht =>
    cases hc.symm.trans hc'
    exact ht
  | failed c' e hc' ha' _ =>
    cases hc.symm.trans hc'
    cases ha.symm.trans ha'
  | _ => subst_vars; cases hc

/-- A micro-operation whose call fails leaves the `Fail` event and its exception (R55, R132). -/
theorem MicroResult.eq_of_fails {i : Instr} {s t : State} {c : PlatCall} {e : PlatErr} (h : MicroResult i s t)
    (hc : microCall s i = some c) (ha : s.platformAnswer c = some e) :
    t = afterFailure s c e (Response.err (failureOf e i)).word (failureOf e i).info := by
  cases h with
  | called c' hc' ha' _ =>
    cases hc.symm.trans hc'
    cases ha.symm.trans ha'
  | failed c' e' hc' ha' ht =>
    cases hc.symm.trans hc'
    cases ha.symm.trans ha'
    exact ht
  | _ => subst_vars; cases hc

/-- A calling micro-operation is of format U. -/
theorem encode_of_microCall {s : State} {i : Instr} {c : PlatCall} (hc : microCall s i = some c) :
    ∃ w, encode i = .micro w := by
  cases i with
  | initRaw | initC | initF | read | teardown => cases hc
  | _ => exact ⟨_, rfl⟩

theorem exec_of_call_succeeds {s : State} {i : Instr} {c : PlatCall} (hb : s.busy) (hw : WellFormed i)
    (hc : microCall s i = some c) (ha : s.platformAnswer c = none) :
    exec i s = .next { afterCall s (c.event s.dinAnswer) (c.effect s.pins) with
      raw := rawAfter s i, fault := faultAfter s i, dinScript := dinScriptAfter s i } := by
  obtain ⟨w, he⟩ := encode_of_microCall hc
  obtain ⟨t, ht⟩ := exec_micro_of_busy hb hw he
  rw [ht, (exec_busy_inversion hb ht).eq_of_succeeds hc ha]

theorem exec_of_call_fails {s : State} {i : Instr} {c : PlatCall} {e : PlatErr} (hb : s.busy) (hw : WellFormed i)
    (hc : microCall s i = some c) (ha : s.platformAnswer c = some e) :
    exec i s = .next (afterFailure s c e (Response.err (failureOf e i)).word (failureOf e i).info) := by
  obtain ⟨w, he⟩ := encode_of_microCall hc
  obtain ⟨t, ht⟩ := exec_micro_of_busy hb hw he
  rw [ht, (exec_busy_inversion hb ht).eq_of_fails hc ha]

/-! ### Calls that succeed -/

/-- A micro-operation that writes a pin meets the form the pin writes are stated in (R136 to R139). -/
theorem writesPin_of_microCall {s : State} {i : Instr} {p : PinId} {l : Level} (hb : s.busy) (hw : WellFormed i)
    (hc : microCall s i = some (.write p l)) : WritesPin i p l s := by
  intro ha
  refine ⟨_, exec_of_call_succeeds hb hw hc ha, fun q => PinTable.get_put s.pins p q (.out l), ?_⟩
  cases i <;> cases hc <;> rfl

/-- Settles O17: the four pin writes are micro-operations that call PinWrite. -/
theorem pinWritesComplete : Obligations.PinWritesComplete := fun _ hb =>
  ⟨writesPin_of_microCall hb rfl rfl, writesPin_of_microCall hb rfl rfl,
    writesPin_of_microCall hb rfl rfl, writesPin_of_microCall hb rfl rfl⟩

/-- Settles O18: in both directions CFG enters its configuration in the pin table. -/
theorem cfgCompletes : Obligations.CfgCompletes := by
  intro s r hb
  refine ⟨fun l ha => ?_, fun ha => ?_⟩
  · exact ⟨_, exec_of_call_succeeds (i := .cfg r .out l) hb rfl rfl ha,
      fun q => PinTable.get_put s.pins (s.pin r) q (.out l), rfl⟩
  · exact ⟨_, exec_of_call_succeeds (i := .cfg r .inp .low) hb rfl rfl ha,
      fun q => PinTable.get_put s.pins (s.pin r) q .inp, rfl⟩

/-- Settles O19: REL enters Free in the pin table. -/
theorem relCompletes : Obligations.RelCompletes := fun s r hb ha =>
  ⟨_, exec_of_call_succeeds (i := .rel r) hb rfl rfl ha, fun q => PinTable.get_put s.pins (s.pin r) q .free, rfl⟩

/-- Settles O20: what is written to RAW is `setRawBit`. -/
theorem smpdCompletes : Obligations.SmpdCompletes := fun s i hb ha =>
  ⟨_, exec_of_call_succeeds (i := .smpd i) hb rfl rfl ha, fun j => setRawBit_get s.raw i j s.dinAnswer, rfl⟩

/-- The bit of a level (R9). -/
theorem levelBit_eq (l : Level) : l.bit = if l = .high then 1#1 else 0#1 := by
  cases l <;> rfl

/-- Settles O22: what is written to FAULT is the bit of the level read. -/
theorem smpfCompletes : Obligations.SmpfCompletes := by
  intro s hb ha
  rw [exec_of_call_succeeds (i := .smpf) hb rfl rfl ha, ← levelBit_eq]
  rfl

/-! ### Micro-operations without a call -/

/-- Settles O23: WAIT is a delay and an advance, under the guard of a running micro-program. -/
theorem waitCompletes : Obligations.WaitCompletes := fun _ _ hb => whileRunning_of_busy hb _

/-- Settles O24: CLR writes two registers and advances, under the guard of a running micro-program. -/
theorem clrCompletes : Obligations.ClrCompletes := fun _ hb => whileRunning_of_busy hb _

/-! ### Calls that fail -/

/-- A calling micro-operation whose exception is PinIOError raises it (R132, R202). -/
theorem raisesPinIO_of_microCall {s : State} {i : Instr} {c : PlatCall} (hb : s.busy) (hw : WellFormed i)
    (hc : microCall s i = some c) (hx : ∀ e, failureOf e i = .pinIO e) : RaisesPinIO i c s := by
  intro e ha
  rw [exec_of_call_fails hb hw hc ha, hx e]
  rfl

/-- Settles O27: every calling micro-operation but CFG raises PinIOError. -/
theorem failedAccessRaisesPinIOError : Obligations.FailedAccessRaisesPinIOError := by
  intro s hb
  have raises {i c} (hw : WellFormed i) (hc : microCall s i = some c) (hx : ∀ e, failureOf e i = .pinIO e) :=
    raisesPinIO_of_microCall hb hw hc hx
  exact ⟨raises rfl rfl fun _ => rfl, raises rfl rfl fun _ => rfl, raises rfl rfl fun _ => rfl,
    raises rfl rfl fun _ => rfl, fun _ => raises rfl rfl fun _ => rfl, raises rfl rfl fun _ => rfl,
    fun _ => raises rfl rfl fun _ => rfl⟩

/-- Settles O28: CFG raises PinConfigurationError, in both directions. -/
theorem failedCfgRaisesPinConfigurationError : Obligations.FailedCfgRaisesPinConfigurationError := fun _ r _ hb =>
  ⟨fun l ha => exec_of_call_fails (i := .cfg r .out l) hb rfl rfl ha,
    fun ha => exec_of_call_fails (i := .cfg r .inp .low) hb rfl rfl ha⟩

/-! ### The pins and the trace over a step -/

/-- A micro-operation leaves every pin but the three the controller owns. -/
theorem pinsAfter_get_other (s : State) (i : Instr) {p : PinId} (hcs : p ≠ s.pinCs) (hclk : p ≠ s.pinClk)
    (hdin : p ≠ s.pinDin) : (pinsAfter s i).get p = s.pins.get p := by
  have hpin (r : Role) : p ≠ s.pin r := by cases r <;> assumption
  cases i <;> simp [pinsAfter, microCall, PlatCall.effect, PinTable.get_put, hcs, hclk, hpin]

/-- Settles O49, by the shape of the step: only a micro-operation that goes on touches pins. -/
theorem onlyOwnPinsChange : Obligations.OnlyOwnPinsChange := by
  intro s t hstep
  cases step_shape hstep with
  | waits _ ht => simp [ht]
  | ends h => simp [h.pins]
  | starts p _ h => simp [h.pins]
  | advances i hb _ h =>
    refine ⟨fun p hcs hclk hdin => ?_, fun hi => absurd hi hb⟩
    rw [h.pins]
    exact pinsAfter_get_other s i hcs hclk hdin

/-- An admission appends no event (R110). -/
theorem AdmissionResult.trace {s t : State} (h : AdmissionResult s t) : t.trace = s.trace := by
  cases h <;> subst_vars <;> rfl

/-- A micro-operation appends no event, a wait, the event of its call, or its failure (R67). -/
theorem MicroResult.trace {i : Instr} {s t : State} (h : MicroResult i s t) :
    t.trace = s.trace ∨ (∃ k, t.trace = s.trace ++ [.wait k]) ∨
    ∃ c, microCall s i = some c ∧
      (t.trace = s.trace ++ [c.event s.dinAnswer] ∨ ∃ e, t.trace = s.trace ++ [.fail c e]) := by
  cases h with
  | failed c e hc _ ht => exact .inr (.inr ⟨c, hc, .inr ⟨e, by rw [ht]; rfl⟩⟩)
  | called c hc _ ht => exact .inr (.inr ⟨c, hc, .inl (by rw [ht]; rfl)⟩)
  | waited k _ ht => exact .inr (.inl ⟨k, by rw [ht]; rfl⟩)
  | _ => subst_vars; exact .inl rfl

/-- The calls of a micro-operation: writes to chip-select and clock, reads of data-in, and in a READ nothing else (R51,
R151). -/
theorem microCall_targets {s : State} {i : Instr} {c : PlatCall} (hc : microCall s i = some c) :
    (∀ p l, c = .write p l → p = s.pinCs ∨ p = s.pinClk) ∧ (∀ p, c = .read p → p = s.pinDin) ∧
    (i ∈ programInstrs .readP → (∀ p k, c ≠ .cfg p k) ∧ ∀ p, c ≠ .rel p) := by
  cases i with
  | cfg r d l =>
    cases hc
    exact ⟨by simp, by simp, fun hi => absurd (cfg_only_in_initP hi) (by decide)⟩
  | rel r =>
    cases hc
    exact ⟨by simp, by simp, fun hi => absurd (rel_only_in_tdP hi) (by decide)⟩
  | _ => cases hc <;> simp

/-- Settles O50: an admission appends nothing, a micro-operation at most the event of its one call. -/
theorem eventsOfOneStep : Obligations.EventsOfOneStep := by
  intro s t hstep
  rcases step_inversion hstep with ⟨-, ht⟩ | ⟨-, rest, ha⟩ | ⟨-, i, hi, hm⟩
  · exact .inl (by rw [ht])
  · exact .inl ha.trace
  rcases hm.trace with hsame | ⟨k, hwait⟩ | ⟨c, hc, hcalled | ⟨e, hfailed⟩⟩
  · exact .inl hsame
  · exact .inr ⟨_, hwait, by simp⟩
  · refine .inr ⟨_, hcalled, ?_⟩
    obtain ⟨hwrite, hread, hreading⟩ := microCall_targets hc
    have hmem (hp : s.upc.prog = .readP) : i ∈ programInstrs .readP := hp ▸ List.mem_of_getElem? hi
    cases c <;> simp_all [PlatCall.event]
  · exact .inr ⟨_, hfailed, by simp⟩

end Sys2Proof.Machine

/-!
A whole command as one run (41_sequencer.md R131): the micro-operations a micro-program has left with the event of each,
and the two ways the run can end, at its last instruction or at the first call the platform fails (R132).
-/

namespace Sys2Proof.Machine

/-! ### The events a micro-program makes -/

/-- The instructions that sample data-in (R161, R162). -/
def samples : Instr → Bool
  | .smpd _ | .smpf => true
  | _ => false

/-- The event of a micro-operation, `lv i` being the level that `i` samples if it samples one. -/
def eventWith (s : State) (lv : Instr → Level) : Instr → Option Event
  | .wait k => some (.wait k)
  | i => (microCall s i).map fun c => c.event (lv i)

/-- The micro-operations with an event that the running micro-program has from `UPC` on, each with its event. -/
def State.micros (s : State) (lv : Instr → Level) : List (Instr × Event) :=
  ((programInstrs s.upc.prog).drop s.upc.idx.toNat).filterMap fun i => (eventWith s lv i).map fun ev => (i, ev)

theorem mem_micros {s : State} {lv : Instr → Level} {i : Instr} {ev : Event} (h : (i, ev) ∈ s.micros lv) :
    i ∈ programInstrs s.upc.prog ∧ eventWith s lv i = some ev := by
  obtain ⟨j, hj, he⟩ := List.mem_filterMap.mp h
  obtain ⟨ev', hev, heq⟩ := Option.map_eq_some_iff.mp he
  cases heq
  exact ⟨List.mem_of_mem_drop hj, hev⟩

theorem micros_events (s : State) (lv : Instr → Level) : (s.micros lv).map Prod.snd =
    ((programInstrs s.upc.prog).drop s.upc.idx.toNat).filterMap (eventWith s lv) := by
  simp [State.micros, List.map_filterMap]

theorem eventWith_of_sample {i : Instr} (h : samples i = true) (s : State) (lv : Instr → Level) :
    eventWith s lv i = some (.read s.pinDin (lv i)) := by
  cases i <;> cases h <;> rfl

/-- An instruction that does not sample has an event without a level to choose, which is no read. -/
theorem eventWith_of_not_sample {i : Instr} (h : samples i ≠ true) (s : State) (lv lv' : Instr → Level) :
    eventWith s lv i = eventWith s lv' i ∧ ∀ p l, eventWith s lv i ≠ some (.read p l) := by
  cases i <;> simp_all [samples, eventWith, microCall, PlatCall.event]

/-- The event is a wait, or that of the call. -/
theorem eventWith_cases (s : State) (lv : Instr → Level) (i : Instr) :
    (∃ k, i = .wait k ∧ eventWith s lv i = some (.wait k)) ∨
    eventWith s lv i = (microCall s i).map fun c => c.event (lv i) := by
  cases i with
  | wait k => exact .inl ⟨k, rfl, rfl⟩
  | _ => exact .inr rfl

theorem mayAppend_of_eventWith {s : State} {lv : Instr → Level} {i : Instr} {ev : Event}
    (h : eventWith s lv i = some ev) : MayAppend s i ev := by
  rcases eventWith_cases s lv i with ⟨k, hi, he⟩ | he
  · exact .inl ⟨k, hi, Option.some.inj (h.symm.trans he)⟩
  · obtain ⟨c, hc, hev⟩ := Option.map_eq_some_iff.mp (he.symm.trans h)
    exact .inr ⟨c, lv i, hc, hev.symm⟩

/-- The micro-operations follow one another with their events, where the reads yield the levels data-in has. -/
theorem micros_follow {s : State} {lv : Instr → Level} (hs : Sensed s ((s.micros lv).map Prod.snd)) :
    Follows s (s.micros lv) :=
  follows_of_sensed (fun _ hx => (programInstrs_micro _ (mem_micros hx).1).1)
    (fun _ hx => mayAppend_of_eventWith (mem_micros hx).2) hs

/-- Whatever levels data-in will have, there are levels that the reads of a list of instructions yield, if no sample is
made twice. -/
theorem exists_sensed (s : State) {is : List Instr} (hnd : (is.filter samples).Nodup) (u : State) :
    ∃ lv, Sensed u (is.filterMap (eventWith s lv)) := by
  induction is generalizing u with
  | nil => exact ⟨fun _ => .low, trivial⟩
  | cons i rest ih =>
    by_cases hi : samples i = true
    · rw [List.filter_cons_of_pos hi] at hnd
      obtain ⟨hnot, hnd⟩ := List.nodup_cons.mp hnd
      obtain ⟨lv, hlv⟩ := ih hnd (u.performed (.read s.pinDin u.dinAnswer))
      have hrest : rest.filterMap (eventWith s (Function.update lv i u.dinAnswer)) =
          rest.filterMap (eventWith s lv) := by
        refine List.filterMap_congr fun j hj => ?_
        by_cases hsj : samples j = true
        · have hne : j ≠ i := fun he => hnot (he ▸ List.mem_filter.mpr ⟨hj, hsj⟩)
          rw [eventWith_of_sample hsj, eventWith_of_sample hsj, Function.update_of_ne hne]
        · exact (eventWith_of_not_sample hsj s _ _).1
      refine ⟨Function.update lv i u.dinAnswer, ?_⟩
      rw [List.filterMap_cons_some (eventWith_of_sample hi s _), hrest, Function.update_self]
      exact ⟨fun p l he => by cases he; rfl, hlv⟩
    · rw [List.filter_cons_of_neg hi] at hnd
      cases he : eventWith s (fun _ => .low) i with
      | none =>
        obtain ⟨lv, hlv⟩ := ih hnd u
        refine ⟨lv, ?_⟩
        rwa [List.filterMap_cons_none ((eventWith_of_not_sample hi s _ _).1.trans he)]
      | some ev =>
        obtain ⟨lv, hlv⟩ := ih hnd (u.performed ev)
        refine ⟨lv, ?_⟩
        rw [List.filterMap_cons_some ((eventWith_of_not_sample hi s _ _).1.trans he)]
        refine ⟨fun p l hr => ?_, hlv⟩
        exact absurd (hr ▸ he) ((eventWith_of_not_sample hi s _ lv).2 p l)

/-! ### The state after a run of micro-operations -/

/-- A part of the state that no micro-operation with an event writes is as before a run of them. -/
theorem State.afterMicros_keeps {α : Type} {part : State → α}
    (h : ∀ (s : State) (i : Instr) (ev : Event), part (s.afterMicro i ev) = part s) (s : State)
    (l : List (Instr × Event)) : part (s.afterMicros l) = part s := by
  induction l generalizing s with
  | nil => rfl
  | cons x rest ih => exact (ih (s.afterMicro x.1 x.2)).trans (h s x.1 x.2)

@[simp] theorem State.afterMicros_lifecycle (s : State) (l : List (Instr × Event)) :
    (s.afterMicros l).lifecycle = s.lifecycle :=
  afterMicros_keeps (fun s _ ev => s.performed_lifecycle ev) s l
@[simp] theorem State.afterMicros_unit (s : State) (l : List (Instr × Event)) : (s.afterMicros l).unit = s.unit :=
  afterMicros_keeps (fun s _ ev => s.performed_unit ev) s l
@[simp] theorem State.afterMicros_pinCs (s : State) (l : List (Instr × Event)) : (s.afterMicros l).pinCs = s.pinCs :=
  afterMicros_keeps (fun s _ ev => s.performed_pinCs ev) s l
@[simp] theorem State.afterMicros_pinClk (s : State) (l : List (Instr × Event)) :
    (s.afterMicros l).pinClk = s.pinClk :=
  afterMicros_keeps (fun s _ ev => s.performed_pinClk ev) s l
@[simp] theorem State.afterMicros_pinDin (s : State) (l : List (Instr × Event)) :
    (s.afterMicros l).pinDin = s.pinDin :=
  afterMicros_keeps (fun s _ ev => s.performed_pinDin ev) s l
@[simp] theorem State.afterMicros_prog (s : State) (l : List (Instr × Event)) :
    (s.afterMicros l).upc.prog = s.upc.prog :=
  afterMicros_keeps (part := fun s => s.upc.prog) (fun _ _ _ => rfl) s l
@[simp] theorem State.afterMicros_hostProgram (s : State) (l : List (Instr × Event)) :
    (s.afterMicros l).hostProgram = s.hostProgram :=
  afterMicros_keeps (fun s _ ev => s.performed_hostProgram ev) s l
@[simp] theorem State.afterMicros_readNo (s : State) (l : List (Instr × Event)) :
    (s.afterMicros l).readNo = s.readNo :=
  afterMicros_keeps (fun s _ ev => s.performed_readNo ev) s l

theorem State.performedAll_trace (s : State) (evs : List Event) : (s.performedAll evs).trace = s.trace ++ evs := by
  induction evs generalizing s with
  | nil => exact (List.append_nil _).symm
  | cons ev rest ih => rw [performedAll_cons, ih, performed_trace, List.append_assoc, List.singleton_append]

@[simp] theorem State.afterMicros_trace (s : State) (l : List (Instr × Event)) :
    (s.afterMicros l).trace = s.trace ++ l.map Prod.snd :=
  (s.afterMicros_samePlatform l).trace.trans (s.performedAll_trace _)

/-- The sequencer has advanced once for each micro-operation. -/
theorem State.afterMicros_idx (s : State) (l : List (Instr × Event)) :
    (s.afterMicros l).upc.idx = s.upc.idx + BitVec.ofNat 6 l.length := by
  induction l generalizing s with
  | nil => exact (BitVec.add_zero _).symm
  | cons x rest ih =>
    calc ((s.afterMicro x.1 x.2).afterMicros rest).upc.idx
      _ = (s.upc.idx + 1) + BitVec.ofNat 6 rest.length := ih (s.afterMicro x.1 x.2)
      _ = s.upc.idx + BitVec.ofNat 6 (x :: rest).length := by
        rw [List.length_cons, Nat.add_comm rest.length 1, BitVec.ofNat_add, BitVec.add_assoc]
        rfl

/-- RAW after a run of micro-operations: a bit sampled in it has the level its sample yields, every other bit is as
before (R161). -/
theorem State.afterMicros_raw_bit {s : State} {l : List (Instr × Event)} {b : Fin 12 → Level} (hf : Follows s l)
    (hb : ∀ i ev, (Instr.smpd i, ev) ∈ l → ∃ p, ev = .read p (b i)) (j : Fin 12) :
    (s.afterMicros l).raw.getLsbD j.val =
      if Instr.smpd j ∈ l.map Prod.fst then decide (b j = .high) else s.raw.getLsbD j.val := by
  induction l generalizing s with
  | nil => rfl
  | cons x rest ih =>
    obtain ⟨i, ev⟩ := x
    obtain ⟨hm, -, hf⟩ := hf
    have hrest := ih hf fun k ev hk => hb k ev (List.mem_cons_of_mem _ hk)
    refine hrest.trans ?_
    have hfirst : (s.afterMicro i ev).raw.getLsbD j.val =
        if .smpd j = i then decide (b j = .high) else s.raw.getLsbD j.val := by
      cases i with
      | smpd k =>
        obtain ⟨p, rfl⟩ := hb k ev (List.mem_cons_self ..)
        have hlevel : s.dinAnswer = b k := (Event.read.inj (Option.some.inj hm)).2
        refine (setRawBit_get s.raw k j s.dinAnswer).trans ?_
        by_cases hjk : j = k
        · simp [hjk, hlevel]
        · simp [hjk]
      | _ => rfl
    simp only [hfirst, List.map_cons, List.mem_cons, or_comm (a := Instr.smpd j = i), ite_or]

/-- FAULT after a run of micro-operations: the level its sample yields, if it is sampled (R162). -/
theorem State.afterMicros_fault {s : State} {l : List (Instr × Event)} {f : Level} (hf : Follows s l)
    (hb : ∀ ev, (Instr.smpf, ev) ∈ l → ∃ p, ev = .read p f) :
    (s.afterMicros l).fault = if Instr.smpf ∈ l.map Prod.fst then f.bit else s.fault := by
  induction l generalizing s with
  | nil => rfl
  | cons x rest ih =>
    obtain ⟨i, ev⟩ := x
    obtain ⟨hm, -, hf⟩ := hf
    have hrest := ih hf fun ev hk => hb ev (List.mem_cons_of_mem _ hk)
    refine hrest.trans ?_
    have hfirst : (s.afterMicro i ev).fault = if .smpf = i then f.bit else s.fault := by
      cases i with
      | smpf =>
        obtain ⟨p, rfl⟩ := hb ev (List.mem_cons_self ..)
        exact congrArg Level.bit (Event.read.inj (Option.some.inj hm)).2
      | _ => rfl
    simp only [hfirst, List.map_cons, List.mem_cons, or_comm (a := Instr.smpf = i), ite_or]

/-! ### The run of a micro-program -/

/-- How the run from `u` ends whose last instruction is `last`: with that instruction, or at the first call the platform
fails (R131, R132). -/
inductive RunEnds (u : State) (lv : Instr → Level) (last : Instr) (t : State) : Prop
  | passed (hff : firstFailure u ((u.micros lv).map Prod.snd) = none)
      (hx : exec last (u.afterMicros (u.micros lv)) = .next t)
  | failed (n : Nat) (c : PlatCall) (e : PlatErr) (x : Instr × Event)
      (hff : firstFailure u ((u.micros lv).map Prod.snd) = some (n, c, e)) (hx : (u.micros lv)[n]? = some x)
      (hc : callOf x.2 = some c)
      (ht : t = ((u.afterMicros ((u.micros lv).take n)).answered (.fail c e)).raise (failureOf e x.1))

/-- The instruction that ends a command leaves the sequencer idle (R145, R146, R180). -/
theorem exec_endsCommand {s : State} {i : Instr} (hb : s.busy) (h : endsCommand i = true) :
    ∃ t, exec i s = .next t ∧ t.upc = ⟨.idle, 0#6⟩ := by
  cases i with
  | rdy => exact ⟨_, whileRunning_of_busy hb _, rfl⟩
  | rls => exact ⟨_, whileRunning_of_busy hb _, rfl⟩
  | conv => exact ⟨_, whileRunning_of_busy hb _, by split <;> rfl⟩
  | _ => cases h

/-- What stands at `UPC` after the first instructions of a run is the next one of its micro-program. -/
theorem State.afterMicros_standsAt {u : State} {last : Instr} {l : List (Instr × Event)}
    (hprog : (programInstrs u.upc.prog).drop u.upc.idx.toNat = l.map Prod.fst ++ [last]) :
    StandsAtUpc (u.afterMicros l) last := by
  have hlast : (programInstrs u.upc.prog)[u.upc.idx.toNat + l.length]? = some last := by
    rw [← List.getElem?_drop, hprog]
    simp
  have hlen := (List.getElem?_eq_some_iff.mp hlast).1
  have hlt := programInstrs_length_lt u.upc.prog
  have hidx : (u.upc.idx + BitVec.ofNat 6 l.length).toNat = u.upc.idx.toNat + l.length := by
    rw [BitVec.toNat_add, BitVec.toNat_ofNat]
    omega
  rw [StandsAtUpc, afterMicros_prog, afterMicros_idx, hidx, hlast]

/-- A micro-program that has micro-operations with events left, and then `last`, runs to its end (R131). -/
theorem runToIdle_micros {u : State} {lv : Instr → Level} {last : Instr} (hb : u.busy)
    (hlast : endsCommand last = true)
    (hprog : (programInstrs u.upc.prog).drop u.upc.idx.toNat = (u.micros lv).map Prod.fst ++ [last])
    (hs : Sensed u ((u.micros lv).map Prod.snd)) (k : Nat) :
    ∃ t, runToIdle (k + 1 + (u.micros lv).length) u = .next t ∧ RunEnds u lv last t := by
  rcases runToIdle_events hb ⟨[last], hprog.symm⟩ (micros_follow hs) (k + 1) with
    ⟨hff, hrun⟩ | ⟨n, c, e, x, hff, hx, hc, hrun⟩
  · have hbusy : (u.afterMicros (u.micros lv)).busy := by rwa [State.busy, State.afterMicros_prog]
    obtain ⟨t, ht, hidle⟩ := exec_endsCommand hbusy hlast
    refine ⟨t, ?_, .passed hff ht⟩
    rw [hrun, runToIdle_of_micro hbusy (State.afterMicros_standsAt hprog) ht]
    exact runToIdle_of_idle (by rw [hidle]) k
  · exact ⟨_, hrun, .failed n c e x hff hx hc rfl⟩

/-! ### The three commands -/

/-- The controller when INIT has been admitted (R110). -/
def State.initStarted (s : State) (unit : TempUnit) (cs clk din : PinId) : State :=
  { s.present with unit := unit, pinCs := cs, pinClk := clk, pinDin := din, upc := ⟨.initP, 0#6⟩ }

/-- The controller when READ has been admitted and `CLR` performed (R110, R160). -/
def State.readStarted (s : State) : State :=
  { s.present with raw := 0#12, fault := 0#1, upc := ⟨.readP, 1#6⟩, readNo := s.readNo + 1 }

/-- The controller when TEARDOWN has been admitted (R110). -/
def State.teardownStarted (s : State) : State := { s.present with upc := ⟨.tdP, 0#6⟩ }

theorem initStarted_events (s : State) (unit : TempUnit) (cs clk din : PinId) (lv : Instr → Level) :
    ((s.initStarted unit cs clk din).micros lv).map Prod.snd = initEvents cs clk din := rfl

theorem readStarted_events (s : State) (lv : Instr → Level) : (s.readStarted.micros lv).map Prod.snd =
    readEvents s.pinCs s.pinClk s.pinDin (fun i => lv (.smpd i)) (lv .smpf) := rfl

theorem teardownStarted_events (s : State) (lv : Instr → Level) :
    (s.teardownStarted.micros lv).map Prod.snd = teardownEvents s.pinCs s.pinClk s.pinDin := rfl

/-- All of `ReadP` between `CLR` and `CONV` is micro-operations with an event (R151). -/
theorem readStarted_instrs (s : State) (lv : Instr → Level) :
    (s.readStarted.micros lv).map Prod.fst = ((programInstrs .readP).drop 1).dropLast := rfl

/-- Events without a read yield no level that could be wrong. -/
theorem sensed_of_no_read {evs : List Event} (h : ∀ p l, Event.read p l ∉ evs) (s : State) : Sensed s evs := by
  induction evs generalizing s with
  | nil => trivial
  | cons ev rest ih =>
    refine ⟨fun p l he => absurd (he ▸ List.mem_cons_self ..) (h p l), ih (fun p l hm => ?_) _⟩
    exact h p l (List.mem_cons_of_mem _ hm)

/-- INIT from Uninitialized with distinct pins runs `InitP` (R111). -/
theorem runCommand_init {s : State} {c : HostCmd} {unit : TempUnit} (hd : decodeOp c.word = .ok (.init unit))
    (hi : s.upc.prog = .idle) (hl : s.lifecycle = .uninitialized) (hp : pinsDistinct c.cs c.clk c.din)
    (lv : Instr → Level) :
    ∃ t, runCommand c s = .next t ∧ RunEnds (s.initStarted unit c.cs c.clk c.din) lv .rdy t := by
  have hx := exec_init hi unit c
  rw [State.admitInit_uninitialized hl unit hp] at hx
  rw [runCommand_of_admission hi (decodeH_of_decodeOp hd) hx]
  exact runToIdle_micros (u := s.initStarted unit c.cs c.clk c.din) (show Prog.initP ≠ .idle by decide) rfl rfl
    (sensed_of_no_read (by simp [initStarted_events, initEvents]) _) 51

/-- READ from Ready is admitted to the first entry of `ReadP`, and that entry is performed (R110, R160). -/
theorem runCommand_read_started {s : State} (hi : s.upc.prog = .idle) (hl : s.lifecycle = .ready) :
    runCommand (bareCmd 0x40#8) s = runToIdle 54 s.readStarted := by
  have hadmit := State.admitRead_ready hl
  have hbusy : s.admitRead.busy := by rw [hadmit]; exact (show Prog.readP ≠ .idle by decide)
  have hclr : exec .clr s.admitRead = .next s.readStarted := by
    rw [exec, execClr, whileRunning_of_busy hbusy, hadmit]
    rfl
  have hstart : runCommand (bareCmd 0x40#8) s = runToIdle 55 s.admitRead :=
    runCommand_of_admission hi (decodeH_read _ _ _) (whileIdle_of_idle hi s.admitRead)
  rw [hstart, runToIdle_of_micro hbusy (by rw [hadmit]; rfl) hclr]

/-- READ from Ready runs `ReadP`, where the reads yield the levels data-in has (R114). -/
theorem runCommand_read {s : State} (hi : s.upc.prog = .idle) (hl : s.lifecycle = .ready) {lv : Instr → Level}
    (hs : Sensed s.readStarted ((s.readStarted.micros lv).map Prod.snd)) :
    ∃ t, runCommand (bareCmd 0x40#8) s = .next t ∧ RunEnds s.readStarted lv .conv t := by
  rw [runCommand_read_started hi hl]
  refine runToIdle_micros (u := s.readStarted) (show Prog.readP ≠ .idle by decide) rfl ?_ hs 0
  rw [readStarted_instrs]
  rfl

/-- TEARDOWN from Ready runs `TdP` (R117). -/
theorem runCommand_teardown {s : State} (hi : s.upc.prog = .idle) (hl : s.lifecycle = .ready) (lv : Instr → Level) :
    ∃ t, runCommand (bareCmd 0x80#8) s = .next t ∧ RunEnds s.teardownStarted lv .rls t := by
  have hx : exec .teardown s = .next _ := whileIdle_of_idle hi _
  simp only [State.admitTeardown, hl] at hx
  rw [runCommand_of_admission (c := bareCmd 0x80#8) hi (decodeH_teardown _ _ _) hx]
  exact runToIdle_micros (u := s.teardownStarted) (show Prog.tdP ≠ .idle by decide) rfl rfl
    (sensed_of_no_read (by simp [teardownStarted_events, teardownEvents]) _) 51

/-- There are levels that the thirteen reads of a READ yield, whatever the sensor does. -/
theorem exists_read_levels (s : State) : ∃ lv, Sensed s.readStarted ((s.readStarted.micros lv).map Prod.snd) := by
  simp only [micros_events]
  exact exists_sensed s.readStarted (is := (programInstrs .readP).drop 1) (by decide) s.readStarted

end Sys2Proof.Machine

/-!
The ideal platform (20_memory.md R56): which calls it fails, and how each command ends on it.
-/

namespace Sys2Proof.Machine

/-- The ideal platform answers the calls, its refusals with the error `e` (R56). -/
structure OnIdeal (e : PlatErr) (s : State) : Prop where
  script : s.callScript = []
  platform : s.platform = .ideal e

theorem OnIdeal.answer {e : PlatErr} {s : State} (h : OnIdeal e s) (c : PlatCall) :
    s.platformAnswer c = idealAnswer e c s.pins :=
  State.platformAnswer_ideal h.script h.platform c

theorem OnIdeal.performed {e : PlatErr} {s : State} (h : OnIdeal e s) (ev : Event) : OnIdeal e (s.performed ev) where
  script := by unfold State.performed; split <;> simp [h.script]
  platform := by simp [h.platform]

/-- The ideal platform fails exactly the configurations of pins that are not Free (R56). -/
theorem idealAnswer_ne_none (e : PlatErr) (c : PlatCall) (pins : PinTable) :
    idealAnswer e c pins ≠ none ↔ ∃ p k, c = .cfg p k ∧ pins.get p ≠ .free := by
  cases c <;> simp [idealAnswer]

theorem idealAnswer_error {e e' : PlatErr} {c : PlatCall} {pins : PinTable} (h : idealAnswer e c pins = some e') :
    e' = e := by
  cases c <;> simp_all [idealAnswer]

/-! ### The first failure -/

/-- No event fails if the platform lets the first succeed, where it makes a call, and then none of the others fails. -/
theorem firstFailure_cons_eq_none {s : State} {ev : Event} {rest : List Event} :
    firstFailure s (ev :: rest) = none ↔
      (∀ c, callOf ev = some c → s.platformAnswer c = none) ∧ firstFailure (s.performed ev) rest = none := by
  rw [firstFailure]
  cases hc : callOf ev with
  | none => simp
  | some c => cases ha : s.platformAnswer c <;> simp [ha]

/-- Every failure on the ideal platform is its one error. -/
theorem OnIdeal.failure_error {e e' : PlatErr} {s : State} (h : OnIdeal e s) {evs : List Event} {n : Nat}
    {c : PlatCall} (hff : firstFailure s evs = some (n, c, e')) : e' = e := by
  induction evs generalizing s n with
  | nil => cases hff
  | cons ev rest ih =>
    rw [firstFailure] at hff
    split at hff
    next c' e'' hcall =>
      cases hff
      obtain ⟨c', -, ha⟩ := Option.bind_eq_some_iff.mp hcall
      obtain ⟨e'', ha, heq⟩ := Option.map_eq_some_iff.mp ha
      cases heq
      exact idealAnswer_error ((h.answer c).symm.trans ha)
    next =>
      obtain ⟨⟨n', x⟩, hrest, heq⟩ := Option.map_eq_some_iff.mp hff
      cases heq
      exact ih (h.performed ev) hrest

/-- Nothing fails on the ideal platform where nothing is configured (R56). -/
theorem OnIdeal.no_failure {e : PlatErr} {s : State} (h : OnIdeal e s) {evs : List Event}
    (hcfg : ∀ p k, Event.cfg p k ∉ evs) : firstFailure s evs = none := by
  induction evs generalizing s with
  | nil => rfl
  | cons ev rest ih =>
    refine firstFailure_cons_eq_none.mpr ⟨fun c hc => ?_, ih (h.performed ev) fun p k hm => ?_⟩
    · rw [h.answer]
      by_contra hne
      obtain ⟨p, k, rfl, -⟩ := (idealAnswer_ne_none e c s.pins).mp hne
      cases ev <;> cases hc
      exact hcfg p k (List.mem_cons_self ..)
    · exact hcfg p k (List.mem_cons_of_mem _ hm)

/-- On the ideal platform a configuration followed by other events succeeds where its pin is Free. -/
theorem OnIdeal.firstFailure_cfg {e : PlatErr} {s : State} (h : OnIdeal e s) (p : PinId) (k : PinSetup)
    (rest : List Event) : firstFailure s (.cfg p k :: rest) = none ↔
      s.pins.get p = .free ∧ firstFailure (s.performed (.cfg p k)) rest = none := by
  rw [firstFailure_cons_eq_none]
  refine and_congr_left fun _ => ?_
  simp [callOf, h.answer, idealAnswer]

/-- On the ideal platform the three configurations of INIT succeed exactly if all three pins are Free (R56). -/
theorem OnIdeal.init_succeeds_iff {e : PlatErr} {s : State} (h : OnIdeal e s) {cs clk din : PinId}
    (hp : pinsDistinct cs clk din) : firstFailure s (initEvents cs clk din) = none ↔
      s.pins.get cs = .free ∧ s.pins.get clk = .free ∧ s.pins.get din = .free := by
  obtain ⟨hcc, hcd, hkd⟩ := hp
  rw [initEvents, h.firstFailure_cfg, (h.performed _).firstFailure_cfg, ((h.performed _).performed _).firstFailure_cfg]
  simp [firstFailure, State.performed_pins, callOf, PlatCall.effect, PinTable.get_put_ne, hcc.symm, hcd.symm,
    hkd.symm]

/-! ### How a command ends that passes -/

theorem RunEnds.last_executed {u : State} {lv : Instr → Level} {last : Instr} {t : State} (h : RunEnds u lv last t)
    (hff : firstFailure u ((u.micros lv).map Prod.snd) = none) :
    exec last (u.afterMicros (u.micros lv)) = .next t := by
  cases h with
  | passed _ hx => exact hx
  | failed n c e x hff' => cases hff.symm.trans hff'

/-- RDY makes the driver Ready and responds `Ok` (R145). -/
theorem exec_rdy_next {s t : State} (hx : exec .rdy s = .next t) :
    t = ({ s with lifecycle := .ready } : State).respond .ok :=
  (whileRunning_next.mp hx).2

/-- RLS makes the driver Released and responds `Ok` (R146). -/
theorem exec_rls_next {s t : State} (hx : exec .rls s = .next t) :
    t = ({ s with lifecycle := .released } : State).respond .ok :=
  (whileRunning_next.mp hx).2

/-- CONV responds what the spec says of the unit, RAW and the fault bit (R115, R180). -/
theorem exec_conv_next {s t : State} {f : Level} (hx : exec .conv s = .next t) (hf : s.fault = f.bit) :
    ∃ r, t = s.respond r ∧ r.word = readResponse s.unit s.raw f ∧ r.info = .none := by
  have ht := (whileRunning_next.mp hx).2
  rw [hf] at ht
  cases f with
  | low => exact ⟨_, ht, rfl, rfl⟩
  | high => exact ⟨_, ht, rfl, rfl⟩

/-- A READ that passes: RAW has the bits read, FAULT the fault bit, and the response converts them (R115). -/
theorem RunEnds.read_passed {s t : State} {lv : Instr → Level} (h : RunEnds s.readStarted lv .conv t)
    (hs : Sensed s.readStarted ((s.readStarted.micros lv).map Prod.snd))
    (hff : firstFailure s.readStarted ((s.readStarted.micros lv).map Prod.snd) = none) :
    (∀ j : Fin 12, t.raw.getLsbD j.val = decide (lv (.smpd j) = .high)) ∧ t.fault = (lv .smpf).bit ∧
    ∃ r, t = (s.readStarted.afterMicros (s.readStarted.micros lv)).respond r ∧
      r.word = readResponse s.unit t.raw (lv .smpf) ∧ r.info = .none := by
  have hdata : ∀ j : Fin 12, Instr.smpd j ∈ ((programInstrs .readP).drop 1).dropLast := by decide
  have hraw (j : Fin 12) : (s.readStarted.afterMicros (s.readStarted.micros lv)).raw.getLsbD j.val =
      decide (lv (.smpd j) = .high) := by
    rw [State.afterMicros_raw_bit (b := fun i => lv (.smpd i)) (micros_follow hs)
      (fun i ev hm => ⟨_, (Option.some.inj (mem_micros hm).2).symm⟩), readStarted_instrs, if_pos (hdata j)]
  have hfault : (s.readStarted.afterMicros (s.readStarted.micros lv)).fault = (lv .smpf).bit := by
    rw [State.afterMicros_fault (f := lv .smpf) (micros_follow hs)
      (fun ev hm => ⟨_, (Option.some.inj (mem_micros hm).2).symm⟩), readStarted_instrs, if_pos (by decide)]
  obtain ⟨r, ht, hword, hinfo⟩ := exec_conv_next (h.last_executed hff) hfault
  rw [State.afterMicros_unit] at hword
  refine ⟨fun j => ?_, ?_, r, ht, ?_, hinfo⟩
  · rw [ht, State.respond_raw, hraw]
  · rw [ht, State.respond_fault, hfault]
  · rw [ht, State.respond_raw, hword]
    rfl

/-! ### The commands on the ideal platform -/

/-- The three INIT words (R86). -/
theorem decodeOp_initWord {w : Byte} (h : w ∈ [0x00#8, 0x10#8, 0x20#8]) : ∃ unit, decodeOp w = .ok (.init unit) := by
  simp only [List.mem_cons, List.not_mem_nil, or_false] at h
  rcases h with rfl | rfl | rfl
  · exact ⟨.raw, by decide⟩
  · exact ⟨.celsius, by decide⟩
  · exact ⟨.fahrenheit, by decide⟩

/-- INIT from Free pins succeeds on the ideal platform (R56). -/
theorem OnIdeal.init_from_free {e : PlatErr} {s : State} (h : OnIdeal e s) {c : HostCmd} {unit : TempUnit}
    (hd : decodeOp c.word = .ok (.init unit)) (hi : s.upc.prog = .idle) (hl : s.lifecycle = .uninitialized)
    (hp : pinsDistinct c.cs c.clk c.din)
    (hfree : s.pins.get c.cs = .free ∧ s.pins.get c.clk = .free ∧ s.pins.get c.din = .free) :
    ∃ t, runCommand c s = .next t ∧ t.resp = 0x00000#18 ∧ t.lifecycle = .ready := by
  obtain ⟨t, hrun, hends⟩ := runCommand_init hd hi hl hp fun _ => .low
  have hideal : OnIdeal e (s.initStarted unit c.cs c.clk c.din) := ⟨h.script, h.platform⟩
  cases exec_rdy_next (hends.last_executed ((hideal.init_succeeds_iff hp).mpr hfree))
  exact ⟨_, hrun, rfl, rfl⟩

/-- The configuration of INIT that the platform fails is that of the role of its place (R113, R201). -/
theorem initStarted_failureOf {s : State} {unit : TempUnit} {cs clk din : PinId} {lv : Instr → Level} {n : Nat}
    {x : Instr × Event} (hx : ((s.initStarted unit cs clk din).micros lv)[n]? = some x) (e : PlatErr) :
    ∃ r, [Role.cs, .clk, .din][n]? = some r ∧ failureOf e x.1 = .pinConfig r e := by
  have hall : ((s.initStarted unit cs clk din).micros lv).map (fun x => failureOf e x.1) =
      [Role.cs, .clk, .din].map fun r => .pinConfig r e := rfl
  have hn := congrArg (·[n]?) hall
  simp only [List.getElem?_map, hx] at hn
  obtain ⟨r, hr, he⟩ := Option.map_eq_some_iff.mp hn.symm
  exact ⟨r, hr, he.symm⟩

/-- INIT that names a pin which is not Free fails on the ideal platform, at a configuration (R56, R113, R201). -/
theorem OnIdeal.init_claimed {e : PlatErr} {s : State} (h : OnIdeal e s) {c : HostCmd} {unit : TempUnit}
    (hd : decodeOp c.word = .ok (.init unit)) (hi : s.upc.prog = .idle) (hl : s.lifecycle = .uninitialized)
    (hp : pinsDistinct c.cs c.clk c.din)
    (hclaimed : s.pins.get c.cs ≠ .free ∨ s.pins.get c.clk ≠ .free ∨ s.pins.get c.din ≠ .free) :
    ∃ t r, runCommand c s = .next t ∧ t.resp = 0x30001#18 ∧ t.respInfo = .config r e ∧
      t.lifecycle = .uninitialized := by
  obtain ⟨t, hrun, hends⟩ := runCommand_init hd hi hl hp fun _ => .low
  have hideal : OnIdeal e (s.initStarted unit c.cs c.clk c.din) := ⟨h.script, h.platform⟩
  cases hends with
  | passed hff =>
    obtain ⟨hcs, hclk, hdin⟩ := (hideal.init_succeeds_iff hp).mp hff
    rcases hclaimed with hne | hne | hne
    · exact absurd hcs hne
    · exact absurd hclk hne
    · exact absurd hdin hne
  | failed n call e' x hff hx _ ht =>
    cases hideal.failure_error hff
    obtain ⟨r, -, hexc⟩ := initStarted_failureOf hx e
    refine ⟨t, r, hrun, ?_⟩
    simp [ht, hexc, Exc.info, State.initStarted, hl]

/-- A value or a fault is no `Err` response (R95). -/
theorem readResponse_tag_ne (u : TempUnit) (raw : BitVec 12) (f : Level) :
    (readResponse u raw f).extractLsb' 16 2 ≠ 3#2 := by
  cases f with
  | high => exact (show (0x20000#18).extractLsb' 16 2 ≠ 3#2 by decide)
  | low =>
    intro h
    have hnum := congrArg BitVec.toNat h
    have hword : (readResponse u raw .low).toNat = 0x10000 + (scaledValue u raw).toNat :=
      Response.word_value_toNat _
    have := (scaledValue u raw).isLt
    rw [BitVec.extractLsb'_toNat, hword, Nat.shiftRight_eq_div_pow] at hnum
    change _ = 3 at hnum
    omega

/-- The calls of a READ all succeed on the ideal platform (R56). -/
theorem OnIdeal.read_no_failure {e : PlatErr} {s : State} (h : OnIdeal e s) (lv : Instr → Level) :
    firstFailure s.readStarted ((s.readStarted.micros lv).map Prod.snd) = none := by
  have hideal : OnIdeal e s.readStarted := ⟨h.script, h.platform⟩
  refine hideal.no_failure fun p k => ?_
  simp [readStarted_events, readEvents, pulseEvents, sampleEvents, heldPulseEvents]

/-- READ never raises on the ideal platform (R56). -/
theorem OnIdeal.read_answers {e : PlatErr} {s : State} (h : OnIdeal e s) (hi : s.upc.prog = .idle)
    (hl : s.lifecycle = .ready) :
    ∃ t, runCommand (bareCmd 0x40#8) s = .next t ∧ t.resp.extractLsb' 16 2 ≠ 3#2 := by
  obtain ⟨lv, hs⟩ := exists_read_levels s
  obtain ⟨t, hrun, hends⟩ := runCommand_read hi hl hs
  obtain ⟨-, -, r, ht, hword, -⟩ := hends.read_passed hs (h.read_no_failure lv)
  have hresp : t.resp = r.word := by rw [ht]; rfl
  exact ⟨t, hrun, by rw [hresp, hword]; exact readResponse_tag_ne _ _ _⟩

/-- TEARDOWN succeeds on the ideal platform (R56). -/
theorem OnIdeal.teardown_succeeds {e : PlatErr} {s : State} (h : OnIdeal e s) (hi : s.upc.prog = .idle)
    (hl : s.lifecycle = .ready) :
    ∃ t, runCommand (bareCmd 0x80#8) s = .next t ∧ t.resp = 0x00000#18 ∧ t.lifecycle = .released := by
  obtain ⟨t, hrun, hends⟩ := runCommand_teardown hi hl fun _ => .low
  have hideal : OnIdeal e s.teardownStarted := ⟨h.script, h.platform⟩
  have hff := hideal.no_failure (evs := (s.teardownStarted.micros fun _ => .low).map Prod.snd)
    (by simp [teardownStarted_events, teardownEvents])
  cases exec_rls_next (hends.last_executed hff)
  exact ⟨_, hrun, rfl, rfl⟩

/-- Settles O29, command by command. -/
theorem idealPlatformSucceeds : Obligations.IdealPlatformSucceeds := by
  intro s e hscript hplatform
  have h : OnIdeal e s := ⟨hscript, hplatform⟩
  refine ⟨fun c => by rw [h.answer, idealAnswer_ne_none], fun hupc => ?_⟩
  have hi : s.upc.prog = .idle := by rw [hupc]
  refine ⟨?_, ?_, h.read_answers hi, h.teardown_succeeds hi⟩
  · intro w cs clk din hw hl hcc hcd hkd hcs hclk hdin
    obtain ⟨unit, hd⟩ := decodeOp_initWord hw
    exact h.init_from_free (c := ⟨w, cs, clk, din⟩) hd hi hl ⟨hcc, hcd, hkd⟩ ⟨hcs, hclk, hdin⟩
  · intro w cs clk din hw hl hcc hcd hkd hclaimed
    obtain ⟨unit, hd⟩ := decodeOp_initWord hw
    exact h.init_claimed (c := ⟨w, cs, clk, din⟩) hd hi hl ⟨hcc, hcd, hkd⟩ hclaimed

end Sys2Proof.Machine

/-!
A READ under a frame source (20_memory.md R64): the clock writes to high since chip-select went low number the bits of
the frame, so the thirteen samples of `ReadP` yield bits 14 down to 2.
-/

namespace Sys2Proof.Machine

/-! ### The clock count -/

/-- The clock writes to high since chip-select was last written low (R64). -/
def State.highs (s : State) : Option Nat := clockHighs s.pinCs s.pinClk s.trace.reverse

theorem State.highs_performed (s : State) (ev : Event) :
    (s.performed ev).highs =
      if ev = .write s.pinCs .low then some 0
      else if ev = .write s.pinClk .high then s.highs.map (· + 1)
      else s.highs := by
  simp only [State.highs, performed_pinCs, performed_pinClk, performed_trace, List.reverse_append,
    List.reverse_singleton, List.singleton_append, clockHighs]

theorem State.highs_csLow (s : State) : (s.performed (.write s.pinCs .low)).highs = some 0 := by
  simp [highs_performed]

theorem State.highs_clkHigh (s : State) : (s.performed (.write s.pinClk .high)).highs = s.highs.map (· + 1) := by
  simp [highs_performed]

theorem State.highs_clkLow {s : State} (h : s.pinCs ≠ s.pinClk) :
    (s.performed (.write s.pinClk .low)).highs = s.highs := by
  simp [highs_performed, h.symm]

theorem State.highs_read (s : State) (p : PinId) (l : Level) : (s.performed (.read p l)).highs = s.highs := by
  simp [highs_performed]

/-! ### The frame source -/

/-- The sensor is a frame source, and `F` is its frame for the READ that runs (R64). -/
structure ReadsFrame (F : BitVec 16) (s : State) : Prop where
  script : s.dinScript = []
  sensor : ∃ fs m, s.sensor = .frames fs ∧ s.readNo = m + 1 ∧ fs[m]? = some F

theorem ReadsFrame.performed {F : BitVec 16} {s : State} (h : ReadsFrame F s) (ev : Event) :
    ReadsFrame F (s.performed ev) where
  script := by
    unfold State.performed
    split
    · cases ev <;> simp [dinScriptPast, h.script]
    · exact h.script
  sensor := by simpa using h.sensor

theorem ReadsFrame.performedAll {F : BitVec 16} {s : State} (h : ReadsFrame F s) (evs : List Event) :
    ReadsFrame F (s.performedAll evs) := by
  induction evs generalizing s with
  | nil => exact h
  | cons ev rest ih => exact ih (h.performed ev)

/-- The `k`-th clock pulse carries bit `16 - k` of the frame (R64). -/
theorem ReadsFrame.level {F : BitVec 16} {s : State} (h : ReadsFrame F s) {k : Nat} (hk : s.highs = some k)
    (hpos : 1 ≤ k) (hle : k ≤ 16) : s.dinAnswer = levelOfBool (F.getLsbD (16 - k)) := by
  obtain ⟨fs, m, hsensor, hno, hF⟩ := h.sensor
  rw [State.highs] at hk
  simp [State.dinAnswer, h.script, hsensor, hno, hk, frameAnswer, hpos, hle, hF]

/-! ### Samples under a frame source -/

theorem sensed_append {s : State} {evs more : List Event} :
    Sensed s (evs ++ more) ↔ Sensed s evs ∧ Sensed (s.performedAll evs) more := by
  induction evs generalizing s with
  | nil => simp [Sensed, State.performedAll]
  | cons ev rest ih => simp only [List.cons_append, Sensed, ih, and_assoc, State.performedAll_cons]

/-- The controller after `k` clock pulses of a READ that the frame `F` answers, its two output pins distinct. -/
structure AtPulse (F : BitVec 16) (k : Nat) (s : State) : Prop extends ReadsFrame F s where
  distinct : s.pinCs ≠ s.pinClk
  highs : s.highs = some k

/-- The state after the events of one sample. -/
theorem State.performedAll_sample (s : State) (clk din : PinId) (b : Level) :
    s.performedAll (sampleEvents clk din b) =
      ((s.performed (.write clk .high)).performed (.read din b)).performed (.write clk .low) := rfl

/-- The next pulse samples the next bit of the frame. -/
theorem AtPulse.sample {F : BitVec 16} {k : Nat} {s : State} (h : AtPulse F k s) (hk : k < 16) (din : PinId) :
    Sensed s (sampleEvents s.pinClk din (levelOfBool (F.getLsbD (15 - k)))) ∧
    AtPulse F (k + 1) (s.performedAll (sampleEvents s.pinClk din (levelOfBool (F.getLsbD (15 - k))))) := by
  have hhigh : (s.performed (.write s.pinClk .high)).highs = some (k + 1) := by
    rw [State.highs_clkHigh, h.highs, Option.map_some]
  have hlevel := (h.toReadsFrame.performed (.write s.pinClk .high)).level hhigh (by omega) (by omega)
  refine ⟨⟨by simp, ?_, by simp, trivial⟩, h.toReadsFrame.performedAll _, ?_, ?_⟩
  · intro p l he
    cases he
    rw [hlevel, Nat.add_comm k 1, Nat.sub_add_eq]
  · simpa [State.performedAll_sample] using h.distinct
  · rw [State.performedAll_sample]
    have hlow := State.highs_clkLow (s := (s.performed (.write s.pinClk .high)).performed
      (.read din (levelOfBool (F.getLsbD (15 - k))))) (by simpa using h.distinct)
    simp only [State.performed_pinClk] at hlow
    rw [hlow, State.highs_read, hhigh]

/-- The samples of the bits `n + 1` down to 2 of a frame. -/
def frameSamples (clk din : PinId) (F : BitVec 16) (n : Nat) : List Event :=
  (List.range n).reverse.flatMap fun j => sampleEvents clk din (levelOfBool (F.getLsbD (j + 2)))

theorem frameSamples_succ (clk din : PinId) (F : BitVec 16) (n : Nat) : frameSamples clk din F (n + 1) =
    sampleEvents clk din (levelOfBool (F.getLsbD (n + 2))) ++ frameSamples clk din F n := by
  simp [frameSamples, List.range_succ]

/-- The samples that are left after `k` pulses, down to bit 2, yield the bits of the frame. -/
theorem AtPulse.sensed_frameSamples {F : BitVec 16} {n k : Nat} {s : State} (h : AtPulse F k s) (hk : k + n = 14)
    (din : PinId) : Sensed s (frameSamples s.pinClk din F n) := by
  induction n generalizing k s with
  | zero => trivial
  | succ n ih =>
    obtain ⟨hsensed, hnext⟩ := h.sample (by omega) din
    rw [show 15 - k = n + 2 by omega] at hsensed hnext
    rw [frameSamples_succ, sensed_append]
    have hrest := ih hnext (by omega)
    simp only [State.performedAll_sample, State.performed_pinClk] at hrest
    exact ⟨hsensed, hrest⟩

/-! ### A READ under a frame source -/

/-- The first seven events of a READ, after which the first pulse is over (R151). -/
def openingEvents (cs clk : PinId) : List Event :=
  [.write cs .low, .wait .tCslow, .write cs .high, .wait .tConv, .write cs .low, .write clk .high, .write clk .low]

/-- The last seven events of a READ (R151). -/
def closingEvents (cs clk : PinId) : List Event := heldPulseEvents clk ++ heldPulseEvents clk ++ [.write cs .high]

/-- The data bit `i` is bit `i + 3` of the frame, and the fault bit is bit 2 (R82, R83). -/
theorem readEvents_frame (cs clk din : PinId) (F : BitVec 16) :
    readEvents cs clk din (fun i => levelOfBool (F.getLsbD (i.val + 3))) (levelOfBool (F.getLsbD 2)) =
      openingEvents cs clk ++ (frameSamples clk din F 13 ++ closingEvents cs clk) := rfl

theorem atPulse_opening {F : BitVec 16} {s : State} (h : ReadsFrame F s) (hd : s.pinCs ≠ s.pinClk) :
    AtPulse F 1 (s.performedAll (openingEvents s.pinCs s.pinClk)) where
  toReadsFrame := h.performedAll _
  distinct := by simpa [openingEvents, State.performedAll] using hd
  highs := by simp [openingEvents, State.performedAll, State.highs_performed, hd.symm]

/-- The levels that a READ samples under a frame source (R64, R82, R83). -/
theorem sensed_readEvents_frame {F : BitVec 16} {s : State} (h : ReadsFrame F s) (hd : s.pinCs ≠ s.pinClk)
    (din : PinId) : Sensed s (readEvents s.pinCs s.pinClk din (fun i => levelOfBool (F.getLsbD (i.val + 3)))
      (levelOfBool (F.getLsbD 2))) := by
  have hpulse := atPulse_opening h hd
  have hsamples := hpulse.sensed_frameSamples (n := 13) rfl din
  have hclk : (s.performedAll (openingEvents s.pinCs s.pinClk)).pinClk = s.pinClk := by
    simp [openingEvents, State.performedAll]
  rw [hclk] at hsamples
  rw [readEvents_frame, sensed_append, sensed_append]
  exact ⟨sensed_of_no_read (by simp [openingEvents]) _, hsamples,
    sensed_of_no_read (by simp [closingEvents, heldPulseEvents]) _⟩

/-- The bit of the level of a bit is that bit (R9). -/
theorem bit_levelOfBool (F : BitVec 16) (n : Nat) : (levelOfBool (F.getLsbD n)).bit = F.extractLsb' n 1 := by
  apply BitVec.eq_of_getLsbD_eq
  intro i hi
  obtain rfl : i = 0 := by omega
  cases hb : F.getLsbD n <;> simp [hb, levelOfBool, Level.bit]

/-- The levels that the samples of a READ yield under the frame `F` (R82, R83). -/
def frameLevels (F : BitVec 16) : Instr → Level
  | .smpd i => levelOfBool (F.getLsbD (i.val + 3))
  | .smpf => levelOfBool (F.getLsbD 2)
  | _ => .low

/-- Settles O58: the thirteen samples are known, and on the ideal platform the READ passes. -/
theorem readUnderAFrameSource : Obligations.ReadUnderAFrameSource := by
  intro s e fs F hupc hl hp hscript hplatform hdin hsensor hF
  have hframe : ReadsFrame F s.readStarted := ⟨hdin, fs, s.readNo, hsensor, rfl, hF⟩
  have hs : Sensed s.readStarted ((s.readStarted.micros (frameLevels F)).map Prod.snd) :=
    sensed_readEvents_frame hframe hp.1 s.pinDin
  obtain ⟨t, hrun, hends⟩ := runCommand_read (by rw [hupc]) hl hs
  have hideal : OnIdeal e s := ⟨hscript, hplatform⟩
  obtain ⟨hbits, hfault, r, ht, hword, -⟩ := hends.read_passed hs (hideal.read_no_failure (frameLevels F))
  have hraw : t.raw = F.extractLsb' 3 12 := by
    apply BitVec.eq_of_getLsbD_eq
    intro i hi
    refine (hbits ⟨i, hi⟩).trans ?_
    cases hb : F.getLsbD (i + 3) <;> simp [frameLevels, levelOfBool, hb, hi, Nat.add_comm 3 i]
  refine ⟨t, hrun, hraw, ?_, ?_, ?_, ?_⟩
  · rw [hfault]
    exact bit_levelOfBool F 2
  · rw [ht, State.respond_resp, hword, hraw]
    rfl
  · rw [ht, State.respond_trace, State.afterMicros_trace, readStarted_events]
    rfl
  · rw [ht, State.respond_readNo, State.afterMicros_readNo]
    rfl

end Sys2Proof.Machine

/-!
Decoding against encoding, in both formats: a format-H word decodes to an operation exactly when it is that operation's
word (R86), a format-U word to a micro-operation exactly when it is that micro-operation's word (R93, R94). From these,
the statements of 30_encoding.md.
-/

namespace Sys2Proof

/-! ### The fields of a word -/

/-- A format-H word is its three fields `op[7:6]`, `unit[5:4]` and `[3:0]` (R85). -/
theorem commandWord_fields (w : Byte) : w.extractLsb' 6 2 ++ w.extractLsb' 4 2 ++ w.extractLsb' 0 4 = w := by
  rw [BitVec.extractLsb'_append_extractLsb'_eq_extractLsb' (start₂ := 6) (start₁ := 4) rfl]
  exact (BitVec.extractLsb'_append_extractLsb'_eq_extractLsb' rfl).trans BitVec.extractLsb'_eq_self

theorem commandWord_eq_iff {w w' : Byte} : w = w' ↔ w.extractLsb' 6 2 = w'.extractLsb' 6 2 ∧
    w.extractLsb' 4 2 = w'.extractLsb' 4 2 ∧ w.extractLsb' 0 4 = w'.extractLsb' 0 4 := by
  constructor
  · rintro rfl
    exact ⟨rfl, rfl, rfl⟩
  · rintro ⟨hop, hunit, hlow⟩
    rw [← commandWord_fields w, hop, hunit, hlow, commandWord_fields]

theorem commandWord_eq {w w' : Byte} (hop : (w.extractLsb' 6 2).toNat = (w'.extractLsb' 6 2).toNat)
    (hunit : (w.extractLsb' 4 2).toNat = (w'.extractLsb' 4 2).toNat)
    (hlow : (w.extractLsb' 0 4).toNat = (w'.extractLsb' 0 4).toNat) : w = w' :=
  commandWord_eq_iff.mpr
    ⟨BitVec.eq_of_toNat_eq hop, BitVec.eq_of_toNat_eq hunit, BitVec.eq_of_toNat_eq hlow⟩

theorem wordH_op (op unit : BitVec 2) : (wordH op unit).extractLsb' 6 2 = op :=
  (BitVec.extractLsb'_append_eq_of_le (by decide)).trans BitVec.extractLsb'_append_eq_left

theorem wordH_unit (op unit : BitVec 2) : (wordH op unit).extractLsb' 4 2 = unit :=
  (BitVec.extractLsb'_append_eq_of_le (by decide)).trans BitVec.extractLsb'_append_eq_right

theorem wordH_low (op unit : BitVec 2) : (wordH op unit).extractLsb' 0 4 = 0#4 :=
  BitVec.extractLsb'_append_eq_right

theorem eq_wordH_iff {w : Byte} {op unit : BitVec 2} : w = wordH op unit ↔
    w.extractLsb' 6 2 = op ∧ w.extractLsb' 4 2 = unit ∧ w.extractLsb' 0 4 = 0#4 := by
  rw [commandWord_eq_iff, wordH_op, wordH_unit, wordH_low]

/-- A format-U word is its two fields, the operation `[7:4]` and the argument `[3:0]` (R93). -/
theorem wordU_fields (b : Byte) : wordU (b.extractLsb' 4 4) (b.extractLsb' 0 4) = b :=
  (BitVec.extractLsb'_append_extractLsb'_eq_extractLsb' rfl).trans BitVec.extractLsb'_eq_self

@[simp] theorem wordU_op (op arg : BitVec 4) : (wordU op arg).extractLsb' 4 4 = op :=
  BitVec.extractLsb'_append_eq_left

@[simp] theorem wordU_arg (op arg : BitVec 4) : (wordU op arg).extractLsb' 0 4 = arg :=
  BitVec.extractLsb'_append_eq_right

theorem micro_wordU_eq {b : Byte} {op arg : BitVec 4} (hop : (b.extractLsb' 4 4).toNat = op.toNat)
    (harg : b.extractLsb' 0 4 = arg) : Code.micro (wordU op arg) = .micro b := by
  rw [← BitVec.eq_of_toNat_eq hop, ← harg, wordU_fields]

theorem ofBool_getLsbD {w : Nat} (x : BitVec w) (n : Nat) : BitVec.ofBool (x.getLsbD n) = x.extractLsb' n 1 := by
  apply BitVec.eq_of_getLsbD_eq
  intro j hj
  obtain rfl : j = 0 := by omega
  simp

/-- A CFG argument is its fields `rr`, `d` and `l` (R93). -/
theorem cfgArg_fields (arg : BitVec 4) :
    arg.extractLsb' 2 2 ++ BitVec.ofBool (arg.getLsbD 1) ++ BitVec.ofBool (arg.getLsbD 0) = arg := by
  rw [ofBool_getLsbD, ofBool_getLsbD,
    BitVec.extractLsb'_append_extractLsb'_eq_extractLsb' (start₂ := 2) (start₁ := 1) rfl]
  exact (BitVec.extractLsb'_append_extractLsb'_eq_extractLsb' rfl).trans BitVec.extractLsb'_eq_self

/-! ### The numeric codes -/

theorem code_of_roleOf {n : Nat} {r : Role} (h : roleOf n = some r) : n = r.code.toNat := by
  unfold roleOf at h
  split at h <;> cases h <;> rfl

theorem code_of_delayOf {n : Nat} {k : DelayKind} (h : delayOf n = some k) : n = k.code.toNat := by
  unfold delayOf at h
  split at h <;> cases h <;> rfl

theorem Level.bit_levelOfBool (v : Bool) : (levelOfBool v).bit = BitVec.ofBool v := by
  cases v <;> rfl

theorem TempUnit.exists_iff {p : TempUnit → Prop} : (∃ u, p u) ↔ p .raw ∨ p .celsius ∨ p .fahrenheit := by
  constructor
  · rintro ⟨_ | _ | _, h⟩ <;> simp only [h, true_or, or_true]
  · rintro (h | h | h) <;> exact ⟨_, h⟩

/-- The unit codes are all two-bit values but 3 (R85). -/
theorem exists_unitCode_iff {v : BitVec 2} : (∃ u : TempUnit, v = u.code) ↔ v ≠ 3#2 := by
  rw [TempUnit.exists_iff]
  show v = 0#2 ∨ v = 1#2 ∨ v = 2#2 ↔ v ≠ 3#2
  bv_omega

/-! ### Format H -/

/-- The word of an operation, from the table of R86. -/
def HostOp.word : HostOp → Byte
  | .init .raw => 0x00#8
  | .init .celsius => 0x10#8
  | .init .fahrenheit => 0x20#8
  | .read => 0x40#8
  | .teardown => 0x80#8

theorem decodeOp_eq_ok {w : Byte} {op : HostOp} : decodeOp w = .ok op ↔ w = op.word := by
  constructor
  · intro h
    unfold decodeOp at h
    split at h <;> cases h <;> exact commandWord_eq ‹_› ‹_› ‹_›
  · rintro rfl
    rcases op with (_ | _ | _) | _ | _ <;> rfl

/-- What a command word decodes to: the operation whose word it is, with the operand lines (R86, R87). -/
theorem decodeH_eq_ok {c : HostCmd} {i : Instr} :
    decodeH c = .ok i ↔ ∃ op : HostOp, c.word = op.word ∧ i = hostInstr op c := by
  constructor
  · intro h
    obtain ⟨op, hop, hi⟩ := Machine.decodeH_inversion h
    exact ⟨op, decodeOp_eq_ok.mp hop, hi⟩
  · rintro ⟨op, hw, rfl⟩
    exact decodeH_of_decodeOp (decodeOp_eq_ok.mpr hw)

theorem HostOp.exists_iff {p : HostOp → Prop} : (∃ op, p op) ↔
    p (.init .raw) ∨ p (.init .celsius) ∨ p (.init .fahrenheit) ∨ p .read ∨ p .teardown := by
  constructor
  · rintro ⟨(_ | _ | _) | _ | _, h⟩ <;> simp only [h, true_or, or_true]
  · rintro (h | h | h | h | h) <;> exact ⟨_, h⟩

/-- A word decodes to an INIT with its own operands exactly when it is the word of an INIT (R86, R87). -/
theorem decodeH_eq_init {c : HostCmd} :
    (decodeH c = .ok (.initRaw c.cs c.clk c.din) ∨ decodeH c = .ok (.initC c.cs c.clk c.din) ∨
      decodeH c = .ok (.initF c.cs c.clk c.din)) ↔ ∃ u, c.word = (HostOp.init u).word := by
  simp [decodeH_eq_ok, HostOp.exists_iff, hostInstr, TempUnit.exists_iff]

theorem decodeH_eq_read {c : HostCmd} : decodeH c = .ok .read ↔ c.word = 0x40#8 := by
  simp [decodeH_eq_ok, HostOp.exists_iff, hostInstr, HostOp.word]

theorem decodeH_eq_teardown {c : HostCmd} : decodeH c = .ok .teardown ↔ c.word = 0x80#8 := by
  simp [decodeH_eq_ok, HostOp.exists_iff, hostInstr, HostOp.word]

theorem HostOp.word_init (u : TempUnit) : (HostOp.init u).word = wordH 0#2 u.code := by
  cases u <;> rfl

/-- The mask `0xCF` keeps the fields `op` and `[3:0]` (R86). -/
theorem and_initMask_eq_zero {w : Byte} :
    w &&& 0xCF#8 = 0x00#8 ↔ w.extractLsb' 6 2 = 0#2 ∧ w.extractLsb' 0 4 = 0#4 := by
  have hop : (0xCF#8).extractLsb' 6 2 = BitVec.allOnes 2 := rfl
  have hunit : (0xCF#8).extractLsb' 4 2 = 0#2 := rfl
  have hlow : (0xCF#8).extractLsb' 0 4 = BitVec.allOnes 4 := rfl
  rw [commandWord_eq_iff, BitVec.extractLsb'_and, BitVec.extractLsb'_and, BitVec.extractLsb'_and, hop, hunit, hlow,
    BitVec.and_allOnes, BitVec.and_zero, BitVec.and_allOnes]
  simp

/-- The INIT words as match and mask (R86). -/
theorem initWord_iff_mask {w : Byte} :
    (∃ u, w = (HostOp.init u).word) ↔ w &&& 0xCF#8 = 0x00#8 ∧ w.extractLsb' 4 2 ≠ 3#2 := by
  rw [and_initMask_eq_zero, ← exists_unitCode_iff]
  simp only [HostOp.word_init, eq_wordH_iff]
  tauto

/-! ### Format U -/

theorem decodeCfg_eq_ok {arg : BitVec 4} {i : Instr} : decodeCfg arg = .ok i ↔
    ∃ r d l, i = .cfg r d l ∧ WellFormed i ∧ arg = r.code ++ d.code ++ l.bit := by
  constructor
  · intro h
    unfold decodeCfg at h
    have hf := (cfgArg_fields arg).symm
    split at h <;> cases h
    case h_3 r hr hd hl =>
      rw [BitVec.eq_of_toNat_eq (code_of_roleOf hr), hd, hl] at hf
      exact ⟨r, .inp, .low, rfl, rfl, hf⟩
    case h_4 r hr hd =>
      rw [BitVec.eq_of_toNat_eq (code_of_roleOf hr), hd, ← Level.bit_levelOfBool (arg.getLsbD 0)] at hf
      exact ⟨r, .out, _, rfl, rfl, hf⟩
  · rintro ⟨r, d, l, rfl, hw, rfl⟩
    cases d with
    | inp =>
      cases l with
      | low => cases r <;> rfl
      | high => cases hw
    | out => cases r <;> cases l <;> rfl

theorem delayArg_eq {arg : BitVec 4} {k : DelayKind} (h : delayOf arg.toNat = some k) : arg = 0#2 ++ k.code := by
  refine BitVec.eq_of_toNat_eq ((code_of_delayOf h).trans ?_)
  cases k <;> rfl

theorem roleArg_eq {arg : BitVec 4} {r : Role} (h : roleOf arg.toNat = some r) : arg = 0#2 ++ r.code := by
  refine BitVec.eq_of_toNat_eq ((code_of_roleOf h).trans ?_)
  cases r <;> rfl

/-- A format-U word that decodes is the word of the micro-operation it decodes to (R93, R94). -/
theorem encode_of_decodeU {b : Byte} {i : Instr} (h : decodeU b = .ok i) : WellFormed i ∧ encode i = .micro b := by
  unfold decodeU at h
  dsimp only at h
  split at h
  -- the operations with an argument: SMPD, WAIT, CFG and REL
  case h_5 hop =>
    split at h <;> cases h
    exact ⟨rfl, micro_wordU_eq hop ((BitVec.ofNat_toNat ..).trans (BitVec.setWidth_eq _)).symm⟩
  case h_7 hop =>
    split at h <;> cases h
    exact ⟨rfl, micro_wordU_eq hop (delayArg_eq ‹_›)⟩
  case h_10 hop =>
    obtain ⟨r, d, l, rfl, hw, harg⟩ := decodeCfg_eq_ok.mp h
    exact ⟨hw, micro_wordU_eq hop harg⟩
  case h_11 hop =>
    split at h <;> cases h
    exact ⟨rfl, micro_wordU_eq hop (roleArg_eq ‹_›)⟩
  -- those without one, and the words that are no micro-operation
  all_goals
    cases h <;> exact ⟨rfl, micro_wordU_eq ‹_› (BitVec.eq_of_toNat_eq ‹_›)⟩

theorem decodeU_cfg (arg : BitVec 4) : decodeU (wordU 0x8#4 arg) = decodeCfg arg := by
  simp only [decodeU, wordU_op, wordU_arg]
  rfl

theorem decodeU_smpd (i : Fin 12) : decodeU (wordU 0x3#4 (BitVec.ofNat 4 i.val)) = .ok (.smpd i) := by
  have hi : (BitVec.ofNat 4 i.val).toNat = i.val := Nat.mod_eq_of_lt (by omega)
  simp only [decodeU, wordU_op, wordU_arg, hi]
  exact dif_pos i.isLt

/-- The word of a well-formed micro-operation decodes to it (R93). -/
theorem decodeU_of_encode {b : Byte} {i : Instr} (hw : WellFormed i) (h : encode i = .micro b) :
    decodeU b = .ok i := by
  cases i with
  | initRaw | initC | initF | read | teardown => cases h
  | smpd j => cases h; exact decodeU_smpd j
  | wait k => cases h; cases k <;> rfl
  | cfg r d l => cases h; exact (decodeU_cfg _).trans (decodeCfg_eq_ok.mpr ⟨r, d, l, rfl, hw, rfl⟩)
  | rel r => cases h; cases r <;> rfl
  | _ => cases h; rfl

/-- A CFG that configures an input with a high level fails the test for the forms that have no encoding (R94). -/
theorem execCfg_inp_high (r : Role) (s : Machine.State) :
    Machine.execCfg r .inp .high s = .refused .noMicroOperation :=
  if_pos ⟨rfl, rfl⟩

/-! ### The statements -/

/-- Settles O1: a command by its word, a micro-operation by its fields. -/
theorem encodeDecodeRoundTrip : Obligations.EncodeDecodeRoundTrip := by
  unfold Obligations.EncodeDecodeRoundTrip
  intro i hw
  cases i with
  | initRaw cs clk din => exact decodeH_initRaw cs clk din
  | initC cs clk din => exact decodeH_initC cs clk din
  | initF cs clk din => exact decodeH_initF cs clk din
  | read => exact decodeH_read ⟨0⟩ ⟨0⟩ ⟨0⟩
  | teardown => exact decodeH_teardown ⟨0⟩ ⟨0⟩ ⟨0⟩
  | _ => exact decodeU_of_encode hw rfl

/-- Settles O2, by the rows of the table of R93. -/
theorem microWordIsItsOwnEncoding : Obligations.MicroWordIsItsOwnEncoding :=
  fun _ _ h => encode_of_decodeU h

/-- Settles O3: the five words by the five operations, the match and mask by the fields of the word. -/
theorem commandWordsAreTheFive : Obligations.CommandWordsAreTheFive := by
  unfold Obligations.CommandWordsAreTheFive
  refine ⟨fun c i => decodeH_eq_ok.trans HostOp.exists_iff, fun c => ?_, fun c => ?_, fun c => ?_⟩
  · rw [← initWord_iff_mask]
    exact decodeH_eq_init
  · exact decodeH_eq_read
  · exact decodeH_eq_teardown

/-- Settles O4: each word is evaluated. -/
theorem wordsOfTheTableDecode : Obligations.WordsOfTheTableDecode := by
  unfold Obligations.WordsOfTheTableDecode
  exact ⟨decodeH_initC _ _ _, decodeH_read _ _ _, rfl, rfl, rfl, rfl, rfl, rfl⟩

/-- Settles O16, by the test of CFG that stands before the guard of the sequencer. -/
theorem illFormedCfgIsRefused : Obligations.IllFormedCfgIsRefused := by
  unfold Obligations.IllFormedCfgIsRefused
  intro s r
  exact execCfg_inp_high r s

end Sys2Proof

/-!
The admission of a command and its answer (40_host_commands.md R110; 41_sequencer.md R131): what a step runs, what each
admission writes, and that every command word gets its response.
-/

namespace Sys2Proof.Machine

/-! ### What a step runs -/

/-- While a micro-program runs, a step executes what the ROM word at `UPC` decodes to (R130). -/
theorem step_of_romWord {s : State} {b : Byte} {i : Instr} (hb : s.busy) (hw : romWord s.upc = some b)
    (hd : decodeU b = .ok i) : step s = exec i s := by
  have hdecodes := romWord_decodes s.upc
  rw [hw, Option.map_some, hd] at hdecodes
  obtain ⟨j, hj, hji⟩ := Option.map_eq_some_iff.mp hdecodes.symm
  cases hji
  exact step_busy hb hj

/-- Settles O6, by what the controller fetches from. -/
theorem stepRunsTheDecodedInstruction : Obligations.StepRunsTheDecodedInstruction :=
  ⟨fun _ hi hh => step_waiting hi hh, fun _ _ _ _ hi hh hd => step_command hi hh hd,
    fun _ _ _ hb hw hd => step_of_romWord hb hw hd⟩

/-! ### Placing a word -/

theorem getElem?_of_firstIndex {w : Byte} {l : List Byte} {n : Nat} (h : firstIndex w l = some n) :
    l[n]? = some w := by
  induction l generalizing n with
  | nil => cases h
  | cons b rest ih =>
    rw [firstIndex] at h
    split at h
    next hb =>
      cases h
      rw [hb, List.getElem?_cons_zero]
    next =>
      obtain ⟨m, hm, rfl⟩ := Option.map_eq_some_iff.mp h
      rw [List.getElem?_cons_succ, ih hm]

/-- Where a word stands first in a micro-program, the ROM gives that word, and `UPC.idx` can count that far. -/
theorem romWord_of_firstIndex {w : Byte} {p : Prog} {n : Nat} (h : firstIndex w (rom p) = some n) :
    romWord ⟨p, BitVec.ofNat 6 n⟩ = some w := by
  have hget := getElem?_of_firstIndex h
  have hlt : n < 64 := by
    have := (List.getElem?_eq_some_iff.mp hget).1
    have := programInstrs_length_lt p
    rw [← rom_length] at this
    omega
  simp [romWord, Nat.mod_eq_of_lt hlt, hget]

/-- The entry found for a word is one of a micro-program that runs, and holds that word. -/
theorem romFind_some {w : Byte} {u : Upc} (h : romFind w = some u) : u.prog ≠ .idle ∧ romWord u = some w := by
  rw [romFind] at h
  split at h <;> cases h <;> exact ⟨by simp, romWord_of_firstIndex ‹_›⟩

theorem withFetchWord_eq (s : State) (w : Byte) : s.withFetchWord 8 w.toNat = s.placeWord w := by
  rw [State.withFetchWord, BitVec.ofNat_toNat, BitVec.setWidth_eq]

/-- A host command's word is placed at the command port (log 12). -/
theorem placeWord_command {w : Byte} {i : Instr} (h : decodeH (bareCmd w) = .ok i) (s : State) :
    s.placeWord w = s.placeCommand w := by
  rw [State.placeWord, h]

/-- A word that is no host command but stands in the ROM is placed there (log 12). -/
theorem placeWord_micro {w : Byte} {u : Upc} (h : ∀ i, decodeH (bareCmd w) ≠ .ok i) (hu : romFind w = some u)
    (s : State) : s.placeWord w = { s with upc := u } := by
  cases hd : decodeH (bareCmd w) with
  | ok i => exact absurd hd (h i)
  | error e => rw [State.placeWord, hd, hu]

/-- Settles O7, by where the word is placed. -/
theorem placedWordIsRunNext : Obligations.PlacedWordIsRunNext := by
  refine ⟨fun s w i hd => ?_, fun s w u i hn hu hd => ?_⟩
  · rw [withFetchWord_eq, placeWord_command hd]
    exact step_command (s := s.placeCommand w) rfl rfl hd
  · obtain ⟨hb, hw⟩ := romFind_some hu
    rw [withFetchWord_eq, placeWord_micro hn hu]
    exact step_of_romWord (s := { s with upc := u }) hb hw hd

/-! ### What each admission writes -/

/-- The three INIT instructions are the admissions of INIT with their units. -/
theorem exec_initInstr {s : State} (hi : s.upc.prog = .idle) {cs clk din : PinId} {i : Instr} {u : TempUnit}
    (h : (i, u) ∈ [(Instr.initRaw cs clk din, TempUnit.raw), (.initC cs clk din, .celsius),
      (.initF cs clk din, .fahrenheit)]) : exec i s = .next (s.admitInit u cs clk din) := by
  simp only [List.mem_cons, Prod.mk.injEq, List.not_mem_nil, or_false] at h
  rcases h with ⟨rfl, rfl⟩ | ⟨rfl, rfl⟩ | ⟨rfl, rfl⟩ <;> exact whileIdle_of_idle hi _

/-- An exception raised while idle writes the response and nothing else (R206). -/
theorem raise_of_idle {s : State} (hi : s.upc.prog = .idle) (x : Exc) : s.raise x = s.answer (.err x) := by
  have hp : s.upc.prog ≠ .tdP := by simp [hi]
  simp only [State.raise, if_neg hp]
  rfl

/-- Settles O8: all three INIT instructions make the one admission, with their unit. -/
theorem initIsAdmitted : Obligations.InitIsAdmitted := by
  intro s cs clk din i u hmem hi hl hcc hcd hkd
  rw [exec_initInstr hi hmem, State.admitInit_uninitialized hl u ⟨hcc, hcd, hkd⟩]
  rfl

/-- Settles O9: the distinctness check comes after the writes of the registers. -/
theorem initNeedsDistinctPins : Obligations.InitNeedsDistinctPins := by
  intro s cs clk din i u hmem hi hl heq
  have hd : ¬ pinsDistinct cs clk din := fun ⟨hcc, hcd, hkd⟩ =>
    heq.elim hcc fun h => h.elim hcd hkd
  rw [exec_initInstr hi hmem, State.admitInit_notDistinct hl u hd, raise_of_idle (by exact hi)]
  rfl

/-- Settles O10, by the lifecycle test of READ. -/
theorem readIsAdmitted : Obligations.ReadIsAdmitted := by
  intro s hi hl
  rw [exec, execRead, whileIdle_of_idle hi, State.admitRead_ready hl]
  rfl

theorem exec_teardown_of_idle {s : State} (hi : s.upc.prog = .idle) : exec .teardown s = .next s.admitTeardown :=
  whileIdle_of_idle hi _

theorem admitTeardown_ready {s : State} (hl : s.lifecycle = .ready) : s.admitTeardown = s.teardownStarted := by
  rw [State.admitTeardown, hl]
  rfl

theorem admitTeardown_released {s : State} (hl : s.lifecycle = .released) :
    s.admitTeardown = s.present.respond .ok := by
  rw [State.admitTeardown, hl]

/-- Settles O11, by the lifecycle test of TEARDOWN. -/
theorem teardownIsAdmitted : Obligations.TeardownIsAdmitted := by
  intro s hi hl
  rw [exec_teardown_of_idle hi, admitTeardown_ready hl]
  rfl

/-- Settles O12: the admission itself responds `Ok`. -/
theorem secondTeardownIsANoOp : Obligations.SecondTeardownIsANoOp := by
  intro s hi hl
  rw [exec_teardown_of_idle hi, admitTeardown_released hl]
  rfl

/-! ### Every command is answered -/

/-- A command presented while idle is admitted, and what the admission starts runs on (R110, R131). -/
theorem runCommand_admits {s : State} (hi : s.upc.prog = .idle) (c : HostCmd) :
    ∃ t, AdmissionResult s t ∧ runCommand c s = runToIdle 55 t := by
  cases hd : decodeH c with
  | ok i =>
    obtain ⟨op, -, rfl⟩ := decodeH_inversion hd
    obtain ⟨c', hc'⟩ := encode_hostInstr op c
    obtain ⟨t, ht⟩ := exec_command_of_idle hi hc'
    exact ⟨t, exec_command_inversion hi ht, runCommand_of_admission hi hd ht⟩
  | error e =>
    refine ⟨s.admitReserved, .illegalCommand rfl, ?_⟩
    rw [runCommand_of_reserved hi hd, runToIdle_of_idle rfl]

/-- The host has `waiting` still to present, and the controller is busy or holds a response (R29, R110). -/
structure Answering (waiting : List HostCmd) (t : State) : Prop where
  waits : t.hostProgram = waiting
  answered : t.upc.prog = .idle → t.respValid = true

theorem AdmissionResult.answering {s t : State} (h : AdmissionResult s t) : Answering s.hostProgram t := by
  cases h <;> subst_vars <;> exact ⟨rfl, by simp⟩

/-- Before the first entry of a micro-program, or idle, `UPC` is legal: no micro-program is empty (R24). -/
theorem upcLegal_of_start {t : State} {p : Prog} (h : t.upc = ⟨p, 0#6⟩) : UpcLegal t := by
  refine ⟨fun _ => by rw [h], fun hb => ?_⟩
  rw [h] at hb ⊢
  cases p with
  | idle => exact absurd rfl hb
  | initP | readP | tdP => decide

theorem AdmissionResult.upcLegal {s t : State} (h : AdmissionResult s t) : UpcLegal t := by
  cases h <;> subst_vars <;> exact upcLegal_of_start rfl

/-- A micro-operation ends the command with a response or leaves the sequencer running. -/
theorem MicroResult.answering {i : Instr} {s t : State} (hb : s.busy) (h : MicroResult i s t) :
    Answering s.hostProgram t := by
  cases h with
  | called | waited | cleared => subst_vars; exact ⟨rfl, fun hi => absurd hi hb⟩
  | _ => subst_vars; exact ⟨rfl, fun _ => rfl⟩

/-- A run that goes on from a running sequencer took its step. -/
theorem runToIdle_busy_next {k : Nat} {s t : State} (hb : s.busy) (h : runToIdle (k + 1) s = .next t) :
    ∃ u, step s = .next u ∧ runToIdle k u = .next t := by
  cases hstep : step s with
  | next u => exact ⟨u, rfl, runToIdle_of_step hb hstep k ▸ h⟩
  | fault r => cases r
  | refused r => simp [runToIdle, hb, hstep] at h

/-- A running micro-program goes on until the response, with what the host has yet to present as before (R131). -/
theorem runToIdle_answering {waiting : List HostCmd} {k : Nat} {s t : State} (hs : Answering waiting s)
    (h : runToIdle k s = .next t) : Answering waiting t := by
  induction k generalizing s with
  | zero => cases h; exact hs
  | succ k ih =>
    by_cases hi : s.upc.prog = .idle
    · rw [runToIdle_of_idle hi] at h
      cases h
      exact hs
    · obtain ⟨u, hstep, hrun⟩ := runToIdle_busy_next hi h
      obtain ⟨i, -, hx⟩ := step_busy_next hi hstep
      exact ih (hs.waits ▸ (exec_busy_inversion hi hx).answering hi) hrun

/-- Once idle, a run does not go on with more steps allowed. -/
theorem runToIdle_of_le {k m : Nat} (hkm : k ≤ m) {s t : State} (h : runToIdle k s = .next t)
    (ht : t.upc.prog = .idle) : runToIdle m s = .next t := by
  induction k generalizing s m with
  | zero => cases h; exact runToIdle_of_idle ht m
  | succ k ih =>
    by_cases hi : s.upc.prog = .idle
    · rw [runToIdle_of_idle hi] at h ⊢
      exact h
    · obtain ⟨m, rfl⟩ := Nat.exists_eq_add_of_le' (Nat.one_le_of_lt hkm)
      obtain ⟨u, hstep, hrun⟩ := runToIdle_busy_next hi h
      rw [runToIdle_of_step hi hstep]
      exact ih (by omega) hrun

theorem rom_length_le (p : Prog) : (rom p).length ≤ 55 := by cases p <;> decide

/-- From a legal `UPC` 55 steps are enough for any micro-program (R131). -/
theorem runToIdle_of_legal {s : State} (hs : UpcLegal s) : ∃ t, runToIdle 55 s = .next t ∧ t.upc = ⟨.idle, 0#6⟩ := by
  by_cases hi : s.upc.prog = .idle
  · exact ⟨s, runToIdle_of_idle hi 55, by rw [← hi, ← hs.1 hi]⟩
  · obtain ⟨t, hrun, hidle⟩ := microProgramsEnd s hs hi
    have := rom_length_le s.upc.prog
    exact ⟨t, runToIdle_of_le (by omega) hrun (by rw [hidle]), hidle⟩

/-- Settles O53: an admission leaves a legal `UPC`, from which the run ends, and it ends with a response. -/
theorem everyCommandIsAnswered : Obligations.EveryCommandIsAnswered := by
  intro s c hupc
  obtain ⟨u, hadmitted, hrun⟩ := runCommand_admits (s := s) (by rw [hupc]) c
  obtain ⟨t, hends, hidle⟩ := runToIdle_of_legal hadmitted.upcLegal
  have hanswering := runToIdle_answering hadmitted.answering hends
  exact ⟨t, hrun.trans hends, hidle, hanswering.answered (by rw [hidle]), hanswering.waits⟩

end Sys2Proof.Machine

/-!
INIT and TEARDOWN as whole commands (40_host_commands.md R113, R117): the pins, the trace and the response, by which of
the platform calls fails first.
-/

namespace Sys2Proof.Machine

/-! ### How a run ends, for any command -/

/-- `t` is `v` with the command closed: idle, with a response, and with `UNIT`, the pin registers, RAW and FAULT as in
`v` (R10, R206). -/
structure Closed (v t : State) : Prop extends SameRegisters v t where
  upc : t.upc = ⟨.idle, 0#6⟩
  respValid : t.respValid = true
  raw : t.raw = v.raw
  fault : t.fault = v.fault

theorem Closed.respond (v : State) (r : Response) : Closed v (v.respond r) :=
  ⟨⟨rfl, rfl, rfl, rfl⟩, rfl, rfl, rfl, rfl⟩

/-- A failed call and its exception close the command (R132, R206). -/
theorem Closed.raise (v : State) (ev : Event) (x : Exc) : Closed v ((v.answered ev).raise x) :=
  ⟨⟨rfl, rfl, rfl, rfl⟩, rfl, rfl, rfl, rfl⟩

theorem exec_conv_responds {v t : State} (hx : exec .conv v = .next t) : ∃ r, t = v.respond r := by
  have ht := (whileRunning_next.mp hx).2
  split at ht <;> exact ⟨_, ht⟩

/-- The instruction that ends a command closes it, appends no event and touches no pin (R145, R146, R180). -/
theorem closed_of_exec {v t : State} {last : Instr} (hlast : endsCommand last = true) (hx : exec last v = .next t) :
    Closed v t ∧ t.trace = v.trace ∧ t.pins = v.pins := by
  cases last with
  | rdy => rw [exec_rdy_next hx]; exact ⟨⟨⟨rfl, rfl, rfl, rfl⟩, rfl, rfl, rfl, rfl⟩, rfl, rfl⟩
  | rls => rw [exec_rls_next hx]; exact ⟨⟨⟨rfl, rfl, rfl, rfl⟩, rfl, rfl, rfl, rfl⟩, rfl, rfl⟩
  | conv =>
    obtain ⟨r, rfl⟩ := exec_conv_responds hx
    exact ⟨Closed.respond v r, rfl, rfl⟩
  | _ => cases hlast

/-- However a run ends, it closes the command after some of the micro-operations and touches no pin after them. -/
theorem RunEnds.closed {u t : State} {lv : Instr → Level} {last : Instr} (h : RunEnds u lv last t)
    (hlast : endsCommand last = true) : ∃ n ≤ (u.micros lv).length,
      Closed (u.afterMicros ((u.micros lv).take n)) t ∧ t.pins = (u.afterMicros ((u.micros lv).take n)).pins := by
  cases h with
  | passed _ hx =>
    obtain ⟨hclosed, -, hpins⟩ := closed_of_exec hlast hx
    exact ⟨_, le_rfl, by rw [List.take_length]; exact ⟨hclosed, hpins⟩⟩
  | failed n c e x _ hx _ ht =>
    subst ht
    exact ⟨n, (List.getElem?_eq_some_iff.mp hx).1.le, Closed.raise _ _ _, rfl⟩

/-- A run that the platform lets pass leaves the trace and the pin table that its events make. -/
theorem RunEnds.passed_trace_pins {s u t : State} {lv : Instr → Level} {last : Instr} {evs : List Event}
    (h : RunEnds u lv last t) (hlast : endsCommand last = true) (hsame : SamePlatform u s)
    (hevs : (u.micros lv).map Prod.snd = evs) (hff : firstFailure s evs = none) :
    t.trace = s.trace ++ evs ∧ t.pins = (s.performedAll evs).pins ∧
      exec last (u.afterMicros (u.micros lv)) = .next t := by
  rw [← hsame.firstFailure, ← hevs] at hff
  have hx := h.last_executed hff
  obtain ⟨-, htrace, hpins⟩ := closed_of_exec hlast hx
  refine ⟨?_, ?_, hx⟩
  · rw [htrace, State.afterMicros_trace, hsame.trace, hevs]
  · rw [hpins, (u.afterMicros_samePlatform _).pins, hevs, (hsame.performedAll _).pins]

/-- A run whose event `n` is the first the platform fails leaves the trace and the pin table that the events before it
make, with the `Fail` event, and raises the exception of the failed call (R132). -/
theorem RunEnds.failed_trace_pins {s u t : State} {lv : Instr → Level} {last : Instr} {evs : List Event} {n : Nat}
    {c : PlatCall} {e : PlatErr} (h : RunEnds u lv last t) (hsame : SamePlatform u s)
    (hevs : (u.micros lv).map Prod.snd = evs) (hff : firstFailure s evs = some (n, c, e)) :
    t.trace = s.trace ++ evs.take n ++ [.fail c e] ∧ t.pins = (s.performedAll (evs.take n)).pins ∧
      ∃ x, (u.micros lv)[n]? = some x ∧ callOf x.2 = some c ∧
        t = ((u.afterMicros ((u.micros lv).take n)).answered (.fail c e)).raise (failureOf e x.1) := by
  rw [← hsame.firstFailure, ← hevs] at hff
  cases h with
  | passed hff' => cases hff'.symm.trans hff
  | failed n' c' e' x hff' hx hc ht =>
    cases hff'.symm.trans hff
    refine ⟨?_, ?_, x, hx, hc, ht⟩
    · rw [ht, State.raise_trace, State.answered_trace, State.afterMicros_trace, List.map_take, hevs, hsame.trace]
    · rw [ht, State.raise_pins, State.answered_pins, (u.afterMicros_samePlatform _).pins, List.map_take, hevs,
        (hsame.performedAll _).pins]

theorem rawAfter_faultAfter_of_not_samples {i : Instr} (h : samples i = false) (s : State) :
    rawAfter s i = s.raw ∧ faultAfter s i = s.fault := by
  cases i with
  | smpd k => cases h
  | smpf => cases h
  | _ => exact ⟨rfl, rfl⟩

/-- RAW and FAULT after micro-operations none of which samples are as before. -/
theorem afterMicros_raw_fault_of_no_sample {s : State} {l : List (Instr × Event)} (h : ∀ x ∈ l, samples x.1 = false) :
    (s.afterMicros l).raw = s.raw ∧ (s.afterMicros l).fault = s.fault := by
  induction l generalizing s with
  | nil => exact ⟨rfl, rfl⟩
  | cons x rest ih =>
    obtain ⟨hraw, hfault⟩ := ih (s := s.afterMicro x.1 x.2) fun y hy => h y (List.mem_cons_of_mem _ hy)
    obtain ⟨hraw', hfault'⟩ := rawAfter_faultAfter_of_not_samples (h x (List.mem_cons_self ..)) s
    exact ⟨hraw.trans hraw', hfault.trans hfault'⟩

/-- The micro-programs of INIT and TEARDOWN sample nothing (R150, R152). -/
theorem samples_only_in_readP {p : Prog} (hp : p ≠ .readP) : ∀ i ∈ programInstrs p, samples i = false := by
  cases p with
  | readP => exact absurd rfl hp
  | idle | initP | tdP => decide

theorem SameRegisters.trans {s t u : State} (h : SameRegisters s t) (h' : SameRegisters t u) : SameRegisters s u :=
  ⟨h'.unit.trans h.unit, h'.pinCs.trans h.pinCs, h'.pinClk.trans h.pinClk, h'.pinDin.trans h.pinDin⟩

theorem State.afterMicros_sameRegisters (s : State) (l : List (Instr × Event)) : SameRegisters s (s.afterMicros l) :=
  ⟨s.afterMicros_unit l, s.afterMicros_pinCs l, s.afterMicros_pinClk l, s.afterMicros_pinDin l⟩

/-- A run of INIT or TEARDOWN keeps the registers it starts with, RAW and FAULT. -/
theorem RunEnds.closed_start {u t : State} {lv : Instr → Level} {last : Instr} (h : RunEnds u lv last t)
    (hlast : endsCommand last = true) (hp : u.upc.prog ≠ .readP) : Closed u t := by
  obtain ⟨n, -, hclosed, -⟩ := h.closed hlast
  obtain ⟨hraw, hfault⟩ := afterMicros_raw_fault_of_no_sample (s := u) (l := (u.micros lv).take n) fun x hx =>
    samples_only_in_readP hp _ (mem_micros (List.mem_of_mem_take hx)).1
  exact {
    toSameRegisters := (u.afterMicros_sameRegisters _).trans hclosed.toSameRegisters
    upc := hclosed.upc
    respValid := hclosed.respValid
    raw := hclosed.raw.trans hraw
    fault := hclosed.fault.trans hfault }

/-! ### INIT -/

/-- The three INIT words select INIT with their units (R86). -/
theorem decodeOp_of_initWord {w : Byte} {u : TempUnit}
    (h : (w, u) ∈ [(0x00#8, TempUnit.raw), (0x10#8, .celsius), (0x20#8, .fahrenheit)]) :
    decodeOp w = .ok (.init u) := by
  simp only [List.mem_cons, Prod.mk.injEq, List.not_mem_nil, or_false] at h
  rcases h with ⟨rfl, rfl⟩ | ⟨rfl, rfl⟩ | ⟨rfl, rfl⟩ <;> decide

/-- The platform answers the admitted INIT as it answers before. -/
theorem initStarted_samePlatform (s : State) (unit : TempUnit) (cs clk din : PinId) :
    SamePlatform (s.initStarted unit cs clk din) s := ⟨rfl, rfl, rfl, rfl, rfl⟩

theorem State.performed_cfg_get (s : State) (p q : PinId) (c : PinSetup) :
    (s.performed (.cfg p c)).pins.get q = if q = p then c.state else s.pins.get q :=
  PinTable.get_put s.pins p q c.state

theorem State.performed_rel_get (s : State) (p q : PinId) :
    (s.performed (.rel p)).pins.get q = if q = p then .free else s.pins.get q :=
  PinTable.get_put s.pins p q .free

/-- The first `n` configurations of INIT configure the pins of the first `n` roles (R113). -/
theorem initEvents_pins (s : State) {cs clk din : PinId} (hp : pinsDistinct cs clk din) (n : Nat) (q : PinId) :
    (s.performedAll ((initEvents cs clk din).take n)).pins.get q = initPins s cs clk din n q := by
  obtain ⟨hcc, hcd, hkd⟩ := hp
  match n with
  | 0 => simp [initPins, State.performedAll]
  | 1 => simp [initPins, initEvents, State.performedAll, State.performed_cfg_get, PinSetup.state]
  | 2 =>
    by_cases hcs : q = cs <;>
      simp [initPins, initEvents, State.performedAll, State.performed_cfg_get, PinSetup.state, hcs, hcc]
  | n + 3 =>
    by_cases hcs : q = cs <;> by_cases hclk : q = clk <;>
      simp_all [initPins, initEvents, State.performedAll, State.performed_cfg_get, PinSetup.state]

/-- Settles O54: the run of `InitP` ends at RDY or in the exception of the configuration that fails. -/
theorem initCommand : Obligations.InitCommand := by
  intro s cs clk din w u hw hupc hl hcc hcd hkd
  have hp : pinsDistinct cs clk din := ⟨hcc, hcd, hkd⟩
  obtain ⟨t, hrun, hends⟩ := runCommand_init (c := ⟨w, cs, clk, din⟩) (decodeOp_of_initWord hw) (by rw [hupc]) hl hp
    fun _ => .low
  have hclosed := hends.closed_start rfl (show Prog.initP ≠ .readP by decide)
  have hsame := initStarted_samePlatform s u cs clk din
  refine ⟨t, hrun, hclosed.unit, hclosed.pinCs, hclosed.pinClk, hclosed.pinDin, hclosed.raw, hclosed.fault,
    hclosed.respValid, hclosed.upc, fun hff => ?_, fun n c e hff => ?_⟩
  · obtain ⟨htrace, hpins, hx⟩ := hends.passed_trace_pins rfl hsame (initStarted_events _ _ _ _ _ _) hff
    have ht := exec_rdy_next hx
    refine ⟨by rw [ht]; rfl, by rw [ht]; rfl, htrace, fun q => ?_⟩
    rw [hpins]
    exact initEvents_pins s hp 3 q
  · obtain ⟨htrace, hpins, x, hx, -, ht⟩ := hends.failed_trace_pins hsame (initStarted_events _ _ _ _ _ _) hff
    obtain ⟨r, hr, hexc⟩ := initStarted_failureOf hx e
    rw [hexc] at ht
    refine ⟨?_, by rw [ht]; rfl, ⟨r, hr, by rw [ht]; rfl⟩, htrace, fun q => ?_⟩
    · simp [ht, State.initStarted, hl]
    · rw [hpins]
      exact initEvents_pins s hp n q

/-! ### TEARDOWN -/

/-- The platform answers the admitted TEARDOWN as it answers before. -/
theorem teardownStarted_samePlatform (s : State) : SamePlatform s.teardownStarted s := ⟨rfl, rfl, rfl, rfl, rfl⟩

/-- The first `n` releases of TEARDOWN release the pins of the first `n` roles (R117). -/
theorem teardownEvents_pins (s : State) (n : Nat) (q : PinId) :
    (s.performedAll ((teardownEvents s.pinCs s.pinClk s.pinDin).take n)).pins.get q = teardownPins s n q := by
  match n with
  | 0 => simp [teardownPins, State.performedAll]
  | 1 => simp [teardownPins, teardownEvents, State.performedAll, State.performed_rel_get]
  | 2 =>
    by_cases hcs : q = s.pinCs <;>
      simp [teardownPins, teardownEvents, State.performedAll, State.performed_rel_get, hcs]
  | n + 3 =>
    by_cases hcs : q = s.pinCs <;> by_cases hclk : q = s.pinClk <;>
      simp [teardownPins, teardownEvents, State.performedAll, State.performed_rel_get, hcs, hclk]

/-- Outside INIT a failed call raises PinIOError (R202). -/
theorem failureOf_pinIO {p : Prog} (hp : p ≠ .initP) {i : Instr} (hi : i ∈ programInstrs p) (e : PlatErr) :
    failureOf e i = .pinIO e := by
  cases i with
  | cfg r d l => exact absurd (cfg_only_in_initP hi) hp
  | _ => rfl

/-- A run of TEARDOWN ends in Released, also where it fails (R117, R206). -/
theorem RunEnds.released {u t : State} {lv : Instr → Level} (h : RunEnds u lv .rls t) (hp : u.upc.prog = .tdP) :
    t.lifecycle = .released := by
  cases h with
  | passed _ hx => rw [exec_rls_next hx]; rfl
  | failed n c e x _ _ _ ht => simp [ht, hp]

/-- Settles O59: the run of `TdP` ends at RLS or in the exception of the release that fails. -/
theorem teardownCommand : Obligations.TeardownCommand := by
  intro s hupc hl _
  obtain ⟨t, hrun, hends⟩ := runCommand_teardown (by rw [hupc]) hl fun _ => .low
  have hclosed := hends.closed_start rfl (show Prog.tdP ≠ .readP by decide)
  have hsame := teardownStarted_samePlatform s
  refine ⟨t, hrun, hends.released rfl, hclosed.respValid, hclosed.upc, hclosed.raw, hclosed.fault, hclosed.unit,
    fun hff => ?_, fun n c e hff => ?_⟩
  · obtain ⟨htrace, hpins, hx⟩ := hends.passed_trace_pins rfl hsame (teardownStarted_events _ _) hff
    refine ⟨by rw [exec_rls_next hx]; rfl, htrace, fun q => ?_⟩
    rw [hpins]
    exact teardownEvents_pins s 3 q
  · obtain ⟨htrace, hpins, x, hx, -, ht⟩ := hends.failed_trace_pins hsame (teardownStarted_events _ _) hff
    have hin : x.1 ∈ programInstrs .tdP := (mem_micros (List.mem_of_getElem? hx)).1
    rw [failureOf_pinIO (by decide) hin] at ht
    refine ⟨by rw [ht]; rfl, by rw [ht]; rfl, htrace, fun q => ?_⟩
    rw [hpins]
    exact teardownEvents_pins s n q

end Sys2Proof.Machine

/-!
READ as one command (40_host_commands.md R115): the bits it assembles, the levels it leaves on chip-select and clock,
and how it ends, for whatever the platform and the sensor answer.
-/

namespace Sys2Proof.Machine

/-! ### The sum of the data bits -/

theorem ofBits_eq_sum {n : Nat} (f : Fin n → Bool) : Nat.ofBits f = ∑ i : Fin n, (f i).toNat * 2 ^ i.val := by
  induction n with
  | zero => rfl
  | succ n ih =>
    rw [Nat.ofBits_succ, ih, Fin.sum_univ_succ, Finset.mul_sum, Nat.add_comm]
    simp [Nat.pow_succ, Nat.mul_comm, Nat.mul_left_comm]

theorem toNat_eq_sum_bits {n : Nat} (x : BitVec n) :
    x.toNat = ∑ i : Fin n, (x.getLsbD i.val).toNat * 2 ^ i.val := by
  calc x.toNat
    _ = Nat.ofBits fun i : Fin n => x.getLsbD i.val := by
      rw [← Nat.mod_eq_of_lt x.isLt]; exact (Nat.ofBits_testBit x.toNat n).symm
    _ = _ := ofBits_eq_sum _

/-- RAW is the sum of the data bits it holds (R165). -/
theorem toNat_eq_indexedSum {raw : BitVec 12} {b : Fin 12 → Level}
    (h : ∀ j : Fin 12, raw.getLsbD j.val = decide (b j = .high)) : raw.toNat = indexedSum b := by
  have hlevel (l : Level) : (decide (l = .high)).toNat = l.toNat := by cases l <;> rfl
  simp only [toNat_eq_sum_bits raw, indexedSum, h, hlevel]

/-! ### The pins during a run -/

/-- The level that a list of micro-operations writes last. -/
def lastWritten (w : Instr → Option Level) : List Instr → Option Level
  | [] => none
  | i :: rest => (lastWritten w rest).or (w i)

theorem writtenOr_or (w w' : Option Level) (x : PinState) : writtenOr (w.or w') x = writtenOr w (writtenOr w' x) := by
  cases w <;> rfl

/-- The event of a micro-operation records its call, whatever level it samples. -/
theorem callOf_eventWith {s : State} {lv : Instr → Level} {i : Instr} {ev : Event} (h : eventWith s lv i = some ev) :
    callOf ev = microCall s i := by
  rcases eventWith_cases s lv i with ⟨k, rfl, he⟩ | he
  · cases he.symm.trans h
    rfl
  · obtain ⟨c, hc, rfl⟩ := Option.map_eq_some_iff.mp (he.symm.trans h)
    rw [hc, callOf_event]

theorem microEvent_eq (s : State) (i : Instr) : microEvent s i = eventWith s (fun _ => s.dinAnswer) i := by
  cases i <;> rfl

theorem afterMicro_pins {s : State} {i : Instr} {ev : Event} (h : microEvent s i = some ev) :
    (s.afterMicro i ev).pins = pinsAfter s i := by
  show (s.performed ev).pins = _
  rw [State.performed_pins, callOf_eventWith (microEvent_eq s i ▸ h)]
  rfl

theorem afterMicro_sameRegisters (s : State) (i : Instr) (ev : Event) : SameRegisters s (s.afterMicro i ev) :=
  ⟨s.performed_unit ev, s.performed_pinCs ev, s.performed_pinClk ev, s.performed_pinDin ev⟩

/-- If each micro-operation of a run writes to a pin what `w` says, the pin holds after the run what `w` says last. -/
theorem State.afterMicros_pin {s : State} {l : List (Instr × Event)} (hf : Follows s l) {q : PinId}
    {w : Instr → Option Level} (hw : ∀ v, SameRegisters s v → ∀ x ∈ l,
      (pinsAfter v x.1).get q = writtenOr (w x.1) (v.pins.get q)) :
    (s.afterMicros l).pins.get q = writtenOr (lastWritten w (l.map Prod.fst)) (s.pins.get q) := by
  induction l generalizing s with
  | nil => rfl
  | cons x rest ih =>
    obtain ⟨hm, -, hf⟩ := hf
    have hfirst : (s.afterMicro x.1 x.2).pins.get q = writtenOr (w x.1) (s.pins.get q) := by
      rw [afterMicro_pins hm]
      exact hw s (.refl s) x (List.mem_cons_self ..)
    have hrest := ih hf fun v hv y hy =>
      hw v ((afterMicro_sameRegisters s x.1 x.2).trans hv) y (List.mem_cons_of_mem _ hy)
    rw [List.map_cons, lastWritten, writtenOr_or, ← hfirst]
    exact hrest

theorem Follows.take {s : State} {l : List (Instr × Event)} (h : Follows s l) (n : Nat) : Follows s (l.take n) := by
  induction l generalizing s n with
  | nil => simpa using h
  | cons x rest ih =>
    cases n with
    | zero => trivial
    | succ n => exact ⟨h.1, h.2.1, ih h.2.2 n⟩

/-! ### The pins of a READ -/

/-- The micro-operations of a READ between `CLR` and `CONV` (R151). -/
def readInstrs : List Instr := ((programInstrs .readP).drop 1).dropLast

theorem readMicros_getElem? {s : State} {lv : Instr → Level} {n : Nat} {x : Instr × Event}
    (h : (s.readStarted.micros lv)[n]? = some x) : readInstrs[n]? = some x.1 := by
  rw [readInstrs, ← readStarted_instrs s lv, List.getElem?_map, h, Option.map_some]

/-- The controller when the first `n` events of a READ have been performed. -/
def State.readUpTo (s : State) (lv : Instr → Level) (n : Nat) : State :=
  s.readStarted.afterMicros ((s.readStarted.micros lv).take n)

theorem readMicros_length (s : State) (lv : Instr → Level) : (s.readStarted.micros lv).length = 53 := rfl

theorem readMicros_take (s : State) (lv : Instr → Level) (n : Nat) :
    ((s.readStarted.micros lv).take n).map Prod.fst = readInstrs.take n := by
  rw [List.map_take, readStarted_instrs, readInstrs]

theorem readUpTo_all (s : State) (lv : Instr → Level) :
    s.readUpTo lv 53 = s.readStarted.afterMicros (s.readStarted.micros lv) := by
  rw [State.readUpTo, List.take_of_length_le (readMicros_length s lv).le]

/-- A micro-operation of a READ touches only chip-select and clock. -/
theorem pinsAfter_read_other {s : State} {i : Instr} (hi : i ∈ programInstrs .readP) {q : PinId} (hcs : q ≠ s.pinCs)
    (hclk : q ≠ s.pinClk) : (pinsAfter s i).get q = s.pins.get q := by
  cases i with
  | cfg r d l => exact absurd (cfg_only_in_initP hi) (by decide)
  | rel r => exact absurd (rel_only_in_tdP hi) (by decide)
  | _ => simp [pinsAfter, microCall, PlatCall.effect, PinTable.get_put, hcs, hclk]

theorem lastWritten_none (l : List Instr) : lastWritten (fun _ => none) l = none := by
  induction l with
  | nil => rfl
  | cons i rest ih => rw [lastWritten, ih, Option.none_or]

/-- The levels written last are those R151 fixes before the next entry. -/
theorem readInstrs_levels : ∀ n < 54,
    lastWritten csWritten (readInstrs.take n) = csLevelAt (n + 1) ∧
    lastWritten clkWritten (readInstrs.take n) = clkLevelAt (n + 1) := by
  decide

/-- The pins after the first `n` events of a READ: chip-select and clock at the levels written last, every other pin as
before (R153, R207). -/
theorem readUpTo_pins {s : State} {lv : Instr → Level} (hd : pinsDistinct s.pinCs s.pinClk s.pinDin)
    (hf : Follows s.readStarted (s.readStarted.micros lv)) {n : Nat} (hn : n < 54) :
    (s.readUpTo lv n).pins.get s.pinCs = writtenOr (csLevelAt (n + 1)) (s.pins.get s.pinCs) ∧
    (s.readUpTo lv n).pins.get s.pinClk = writtenOr (clkLevelAt (n + 1)) (s.pins.get s.pinClk) ∧
    ∀ q, q ≠ s.pinCs → q ≠ s.pinClk → (s.readUpTo lv n).pins.get q = s.pins.get q := by
  have hmem (x) (hx : x ∈ (s.readStarted.micros lv).take n) : x.1 ∈ programInstrs .readP :=
    (mem_micros (List.mem_of_mem_take hx)).1
  have hread (v : State) (hv : SameRegisters s.readStarted v) (x) (hx : x ∈ (s.readStarted.micros lv).take n) :=
    pinsAfter_read (s := v) (hmem x hx) (by rwa [hv.pinCs, hv.pinClk, hv.pinDin])
  obtain ⟨hcs, hclk⟩ := readInstrs_levels n hn
  rw [← hcs, ← hclk, ← readMicros_take s lv]
  refine ⟨?_, ?_, fun q hqcs hqclk => ?_⟩
  · exact State.afterMicros_pin (hf.take n) fun v hv x hx => hv.pinCs ▸ (hread v hv x hx).1
  · exact State.afterMicros_pin (hf.take n) fun v hv x hx => hv.pinClk ▸ (hread v hv x hx).2.1
  · have hsame := State.afterMicros_pin (w := fun _ => none) (hf.take n) fun v hv x hx =>
      pinsAfter_read_other (hmem x hx) (hv.pinCs ▸ hqcs) (hv.pinClk ▸ hqclk)
    rw [lastWritten_none] at hsame
    exact hsame

/-- The level clock has while a micro-operation of a READ is performed, where it was low before the READ (R207). -/
def clkDuring : Instr → Level
  | .smpd _ | .smpf | .ckl | .wait .tPulse => .high
  | _ => .low

theorem clkLevelAtCall_eq {s : State} {i : Instr} {c : PlatCall} (hc : microCall s i = some c)
    (hd : s.pinCs ≠ s.pinClk) : clkLevelAtCall s.pinClk c = clkDuring i := by
  cases i <;> cases hc <;> simp [clkLevelAtCall, clkDuring, hd]

/-- Clock before event `n` of a READ, where it was low before the READ. -/
theorem clkDuring_event : ∀ n < 53, (readInstrs[n]?).map (fun i => PinState.out (clkDuring i)) =
    some (writtenOr (clkLevelAt (n + 1)) (.out .low)) := by
  decide

/-- Chip-select before event `n` of a READ, where it was high before the READ; event 3, a wait, is no call. -/
theorem csLevelAtEvent_eq : ∀ n < 53, readInstrs[n]? ≠ some (.wait .tConv) →
    writtenOr (csLevelAt (n + 1)) (.out .high) = .out (csLevelAtEvent n) := by
  decide

/-! ### RAW and FAULT of a READ -/

/-- Event `41 - 3j` of a READ samples data bit `j` (R151). -/
theorem smpd_event : ∀ n < 53, ∀ j : Fin 12, readInstrs[n]? = some (.smpd j) ↔ n = 41 - 3 * j.val := by
  decide

/-- Event 44 of a READ samples the fault bit (R151). -/
theorem smpf_event : ∀ n < 53, readInstrs[n]? = some .smpf ↔ n = 44 := by
  decide

theorem readInstrs_length : readInstrs.length = 53 := rfl

/-- An instruction that is event `m` of a READ and no other is among the first `n` exactly if `m < n`. -/
theorem mem_readInstrs_take {i : Instr} {m : Nat} (h : ∀ n < 53, readInstrs[n]? = some i ↔ n = m) (hm : m < 53)
    (n : Nat) : i ∈ readInstrs.take n ↔ m < n := by
  have hlen := readInstrs_length
  rw [List.mem_take_iff_getElem]
  constructor
  · rintro ⟨k, hk, hi⟩
    have hkm := (h k (by omega)).mp (List.getElem?_eq_some_iff.mpr ⟨_, hi⟩)
    omega
  · intro hmn
    obtain ⟨hlt, hi⟩ := List.getElem?_eq_some_iff.mp ((h m hm).mpr rfl)
    exact ⟨m, by omega, hi⟩

/-- RAW and FAULT after the first `n` events of a READ: what was sampled so far (R207). -/
theorem readUpTo_raw_fault {s : State} {lv : Instr → Level} (hf : Follows s.readStarted (s.readStarted.micros lv))
    (n : Nat) :
    (∀ j : Fin 12, (s.readUpTo lv n).raw.getLsbD j.val = rawBitAfter (fun i => lv (.smpd i)) n j) ∧
    (s.readUpTo lv n).fault = faultAfterEvents (lv .smpf) n := by
  have hread {i : Instr} (hi : samples i = true) (ev) (hm : (i, ev) ∈ (s.readStarted.micros lv).take n) :
      ∃ p, ev = .read p (lv i) :=
    ⟨_, Option.some.inj ((mem_micros (List.mem_of_mem_take hm)).2.symm.trans (eventWith_of_sample hi _ _))⟩
  refine ⟨fun j => ?_, ?_⟩
  · rw [State.readUpTo, State.afterMicros_raw_bit (b := fun i => lv (.smpd i)) (hf.take n) (fun i ev => hread rfl ev),
      readMicros_take, if_congr (mem_readInstrs_take (fun n hn => smpd_event n hn j) (by omega) n) rfl rfl]
    by_cases hj : 41 - 3 * j.val < n <;> simp [rawBitAfter, hj, State.readStarted]
  · rw [State.readUpTo, State.afterMicros_fault (f := lv .smpf) (hf.take n) (fun ev => hread rfl ev), readMicros_take,
      if_congr (mem_readInstrs_take smpf_event (by omega) n) rfl rfl]
    rfl

/-! ### READ as one command -/

/-- The platform answers during the READ, `CLR` performed, as it answers before. -/
theorem readStarted_samePlatform (s : State) : SamePlatform s.readStarted s := ⟨rfl, rfl, rfl, rfl, rfl⟩

/-- The READ counted, the platform answers the same. -/
theorem readNo_samePlatform (s : State) : SamePlatform { s with readNo := s.readNo + 1 } s := ⟨rfl, rfl, rfl, rfl, rfl⟩

/-- `CLR` and the admission change nothing of the environment but the count of READs. -/
theorem readStarted_sameEnvironment (s : State) :
    SameEnvironment s.readStarted { s with readNo := s.readNo + 1 } :=
  ⟨⟨rfl, rfl, rfl, rfl, rfl⟩, rfl, rfl, rfl, rfl, rfl⟩

/-- A READ leaves the lifecycle as it is, also where it fails (R206). -/
theorem RunEnds.read_lifecycle {s t : State} {lv : Instr → Level} (h : RunEnds s.readStarted lv .conv t) :
    t.lifecycle = s.lifecycle := by
  cases h with
  | passed _ hx =>
    obtain ⟨r, ht⟩ := exec_conv_responds hx
    rw [ht, State.respond_lifecycle, State.afterMicros_lifecycle]
    rfl
  | failed n c e x _ _ _ ht => simp [ht, State.readStarted]

/-- However a READ ends, it is closed with the registers it began with, and no pin but chip-select and clock has
changed. -/
theorem RunEnds.read_closed {s t : State} {lv : Instr → Level} (h : RunEnds s.readStarted lv .conv t)
    (hd : pinsDistinct s.pinCs s.pinClk s.pinDin) (hf : Follows s.readStarted (s.readStarted.micros lv)) :
    SameRegisters s t ∧ t.respValid = true ∧ t.upc = ⟨.idle, 0#6⟩ ∧
      ∀ q, q ≠ s.pinCs → q ≠ s.pinClk → t.pins.get q = s.pins.get q := by
  obtain ⟨n, hn, hclosed, hpins⟩ := h.closed rfl
  rw [readMicros_length] at hn
  obtain ⟨-, -, hother⟩ := readUpTo_pins hd hf (n := n) (by omega)
  have hregs := (State.afterMicros_sameRegisters _ _).trans hclosed.toSameRegisters
  exact ⟨⟨hregs.unit, hregs.pinCs, hregs.pinClk, hregs.pinDin⟩, hclosed.respValid, hclosed.upc, hpins ▸ hother⟩

/-- A READ that the platform lets pass: the 53 events, the bits they read, chip-select high and clock low, and the
response that converts the bits (R115). -/
theorem RunEnds.read_succeeds {s t : State} {lv : Instr → Level} (h : RunEnds s.readStarted lv .conv t)
    (hd : pinsDistinct s.pinCs s.pinClk s.pinDin)
    (hs : Sensed s.readStarted ((s.readStarted.micros lv).map Prod.snd))
    (hff : firstFailure s.readStarted ((s.readStarted.micros lv).map Prod.snd) = none) :
    t.trace = s.trace ++ readEvents s.pinCs s.pinClk s.pinDin (fun i => lv (.smpd i)) (lv .smpf) ∧
    t.raw.toNat = indexedSum (fun i => lv (.smpd i)) ∧ t.fault = (lv .smpf).bit ∧
    t.pins.get s.pinCs = .out .high ∧ t.pins.get s.pinClk = .out .low ∧
    t.resp = readResponse s.unit t.raw (lv .smpf) ∧ t.respInfo = .none := by
  obtain ⟨hbits, hfault, r, ht, hword, hinfo⟩ := h.read_passed hs hff
  obtain ⟨hcs, hclk, -⟩ := readUpTo_pins hd (micros_follow hs) (n := 53) (by decide)
  rw [readUpTo_all] at hcs hclk
  refine ⟨?_, toNat_eq_indexedSum hbits, hfault, ?_, ?_, ?_, ?_⟩
  · rw [ht, State.respond_trace, State.afterMicros_trace, readStarted_events]
    rfl
  · rw [ht, State.respond_pins]
    exact hcs
  · rw [ht, State.respond_pins]
    exact hclk
  · rw [ht] at hword ⊢
    exact hword
  · rw [ht]
    exact hinfo

/-- The levels of R207: chip-select and clock while call `n` of a READ is tried, where chip-select was high and clock
low before the READ. -/
theorem read_levels_at_call {s : State} {lv : Instr → Level} (hd : pinsDistinct s.pinCs s.pinClk s.pinDin)
    (hf : Follows s.readStarted (s.readStarted.micros lv)) {n : Nat} {c : PlatCall} {x : Instr × Event}
    (hx : (s.readStarted.micros lv)[n]? = some x) (hc : callOf x.2 = some c)
    (hcs : s.pins.get s.pinCs = .out .high) (hclk : s.pins.get s.pinClk = .out .low) :
    (s.readUpTo lv n).pins.get s.pinCs = .out (csLevelAtEvent n) ∧
    (s.readUpTo lv n).pins.get s.pinClk = .out (clkLevelAtCall s.pinClk c) := by
  have hi := readMicros_getElem? hx
  have hn : n < 53 := (List.getElem?_eq_some_iff.mp hi).1
  have hcall : microCall s.readStarted x.1 = some c :=
    (callOf_eventWith (mem_micros (List.mem_of_getElem? hx)).2).symm.trans hc
  obtain ⟨hcs', hclk', -⟩ := readUpTo_pins hd hf (n := n) (by omega)
  constructor
  · have hwait : readInstrs[n]? ≠ some (.wait .tConv) := by
      rw [hi]
      intro he
      rw [Option.some.inj he] at hcall
      cases hcall
    rw [hcs', hcs, csLevelAtEvent_eq n hn hwait]
  · have hlevel := clkDuring_event n hn
    rw [hi, Option.map_some, Option.some.injEq] at hlevel
    have hduring : clkLevelAtCall s.pinClk c = clkDuring x.1 := clkLevelAtCall_eq hcall hd.1
    rw [hclk', hclk, ← hlevel, hduring]

/-- Settles O55: the run of `ReadP` after `CLR` ends at CONV or in the exception of the call that fails. -/
theorem readCommand : Obligations.ReadCommand := by
  intro s hupc hl hd
  obtain ⟨lv, hs⟩ := exists_read_levels s
  obtain ⟨t, hrun, hends⟩ := runCommand_read (by rw [hupc]) hl hs
  have hf := micros_follow hs
  obtain ⟨hregs, hvalid, hidle, hother⟩ := hends.read_closed hd hf
  refine ⟨t, fun i => lv (.smpd i), lv .smpf, hrun, ?_, hends.read_lifecycle.trans hl, hregs.unit, hregs.pinCs,
    hregs.pinClk, hregs.pinDin, hvalid, hidle, hother, fun hff => ?_, fun n c e hff => ?_⟩
  · exact (readStarted_sameEnvironment s).sensed.mp (readStarted_events s lv ▸ hs)
  · rw [← (readStarted_sameEnvironment s).firstFailure] at hff
    exact hends.read_succeeds hd hs hff
  · rw [(readNo_samePlatform s).firstFailure] at hff
    obtain ⟨htrace, hpins, x, hx, hc, ht⟩ := hends.failed_trace_pins (readStarted_samePlatform s)
      (readStarted_events s lv) hff
    have hin : x.1 ∈ programInstrs .readP := (mem_micros (List.mem_of_getElem? hx)).1
    obtain ⟨hraw, hfault⟩ := readUpTo_raw_fault hf n
    rw [failureOf_pinIO (by decide) hin] at ht
    refine ⟨htrace, fun j => ?_, ?_, hpins, fun hcs hclk => ?_, by rw [ht]; rfl, by rw [ht]; rfl⟩
    · rw [ht]
      exact hraw j
    · rw [ht]
      exact hfault
    · rw [ht]
      exact read_levels_at_call hd hf hx hc hcs hclk

/-! ### A READ with scripted answers -/

/-- The level a read yielded. -/
def levelRead : Event → Option Level
  | .read _ l => some l
  | _ => none

theorem levelRead_eq_some {ev : Event} {l : Level} (h : levelRead ev = some l) : ∃ p, ev = .read p l := by
  cases ev with
  | read p l' => cases h; exact ⟨p, rfl⟩
  | _ => cases h

theorem State.performed_dinScript (s : State) (ev : Event) :
    (s.performed ev).dinScript = dinScriptPast ev s.dinScript := by
  cases ev <;> rfl

theorem dinScriptPast_of_no_level {ev : Event} (h : levelRead ev = none) (ds : List Level) :
    dinScriptPast ev ds = ds := by
  cases ev with
  | read p l => cases h
  | _ => rfl

/-- Events whose reads yield the next scripted levels are those the sensor makes. -/
theorem sensed_of_script {s : State} {evs : List Event} {levels : List Level}
    (h : s.dinScript = evs.filterMap levelRead ++ levels) :
    Sensed s evs ∧ (s.performedAll evs).dinScript = levels := by
  induction evs generalizing s with
  | nil => exact ⟨trivial, h⟩
  | cons ev rest ih =>
    cases hl : levelRead ev with
    | none =>
      rw [List.filterMap_cons_none hl] at h
      obtain ⟨hrest, hleft⟩ := ih ((s.performed_dinScript ev).trans ((dinScriptPast_of_no_level hl _).trans h))
      have hno (p l) (he : ev = .read p l) : l = s.dinAnswer := by
        rw [he] at hl
        cases hl
      exact ⟨⟨hno, hrest⟩, hleft⟩
    | some l =>
      obtain ⟨p, rfl⟩ := levelRead_eq_some hl
      rw [List.filterMap_cons_some hl, List.cons_append] at h
      obtain ⟨hrest, hleft⟩ := ih ((s.performed_dinScript (.read p l)).trans (congrArg List.tail h))
      exact ⟨⟨fun q l' he => by cases he; exact (State.dinAnswer_cons h).symm, hrest⟩, hleft⟩

/-- Where the next scripted answers let all the calls of the events succeed, none fails. -/
theorem firstFailure_of_script {s : State} {evs : List Event} {calls : List (Option PlatErr)}
    (h : s.callScript = List.replicate (evs.filterMap callOf).length none ++ calls) :
    firstFailure s evs = none ∧ (s.performedAll evs).callScript = calls := by
  induction evs generalizing s with
  | nil => exact ⟨rfl, h⟩
  | cons ev rest ih =>
    cases hc : callOf ev with
    | none =>
      have hkeep : (s.performed ev).callScript = s.callScript := by simp [State.performed, hc]
      rw [List.filterMap_cons_none hc] at h
      obtain ⟨hff, hleft⟩ := ih (hkeep.trans h)
      exact ⟨firstFailure_cons_eq_none.mpr ⟨by simp [hc], hff⟩, hleft⟩
    | some c =>
      have htail : (s.performed ev).callScript = s.callScript.tail := by simp [State.performed, hc]
      rw [List.filterMap_cons_some hc, List.length_cons, List.replicate_succ, List.cons_append] at h
      obtain ⟨hff, hleft⟩ := ih (htail.trans (congrArg List.tail h))
      exact ⟨firstFailure_cons_eq_none.mpr ⟨fun c' _ => State.platformAnswer_cons h c', hff⟩, hleft⟩

/-- A run of micro-operations uses up the scripted levels that its events do. -/
theorem State.afterMicros_dinScript {s u : State} (h : s.dinScript = u.dinScript) (l : List (Instr × Event)) :
    (s.afterMicros l).dinScript = (u.performedAll (l.map Prod.snd)).dinScript := by
  induction l generalizing s u with
  | nil => exact h
  | cons x rest ih =>
    refine ih ((s.performed_dinScript x.2).trans ?_)
    rw [h, performed_dinScript]

/-- Levels for the thirteen samples of a READ. -/
def sampleLevels (b : Fin 12 → Level) (f : Level) : Instr → Level
  | .smpd i => b i
  | .smpf => f
  | _ => .low

/-- The thirteen levels a READ samples, in the order of its samples (R151). -/
def scriptOf (b : Fin 12 → Level) (f : Level) : List Level :=
  [b 11, b 10, b 9, b 8, b 7, b 6, b 5, b 4, b 3, b 2, b 1, b 0, f]

/-- The events of a READ read the thirteen levels. -/
theorem levelRead_readEvents (cs clk din : PinId) (b : Fin 12 → Level) (f : Level) :
    (readEvents cs clk din b f).filterMap levelRead = scriptOf b f := rfl

/-- The events of a READ record 49 calls. -/
theorem calls_readEvents (cs clk din : PinId) (b : Fin 12 → Level) (f : Level) :
    ((readEvents cs clk din b f).filterMap callOf).length = 49 := rfl

theorem sampleLevels_events (s : State) (b : Fin 12 → Level) (f : Level) :
    (s.readStarted.micros (sampleLevels b f)).map Prod.snd = readEvents s.pinCs s.pinClk s.pinDin b f :=
  readStarted_events s _

/-- A READ whose scripts let every call succeed and give the thirteen levels passes, and uses up just these. -/
theorem runCommand_read_scripted {s : State} {b : Fin 12 → Level} {f : Level} {calls : List (Option PlatErr)}
    {levels : List Level} (hi : s.upc.prog = .idle) (hl : s.lifecycle = .ready)
    (hcalls : s.callScript = List.replicate 49 none ++ calls) (hlevels : s.dinScript = scriptOf b f ++ levels) :
    ∃ t, runCommand (bareCmd 0x40#8) s = .next t ∧ RunEnds s.readStarted (sampleLevels b f) .conv t ∧
      Sensed s.readStarted ((s.readStarted.micros (sampleLevels b f)).map Prod.snd) ∧
      firstFailure s.readStarted ((s.readStarted.micros (sampleLevels b f)).map Prod.snd) = none ∧
      t.callScript = calls ∧ t.dinScript = levels := by
  rw [← levelRead_readEvents s.pinCs s.pinClk s.pinDin, ← sampleLevels_events] at hlevels
  rw [← calls_readEvents s.pinCs s.pinClk s.pinDin b f, ← sampleLevels_events] at hcalls
  obtain ⟨hs, hdin⟩ := sensed_of_script (s := s.readStarted) hlevels
  obtain ⟨hff, hcall⟩ := firstFailure_of_script (s := s.readStarted) hcalls
  obtain ⟨t, hrun, hends⟩ := runCommand_read hi hl hs
  obtain ⟨r, ht⟩ := exec_conv_responds (hends.last_executed hff)
  refine ⟨t, hrun, hends, hs, hff, ?_, ?_⟩
  · rw [ht, State.respond_callScript, (State.afterMicros_samePlatform _ _).callScript, hcall]
  · rw [ht, State.respond_dinScript, State.afterMicros_dinScript rfl, hdin]

/-- Settles O56: the scripts say that the READ passes and which levels it samples. -/
theorem readDecodesTheSampledBits : Obligations.ReadDecodesTheSampledBits := by
  intro s b f calls levels hupc hl hd hcalls hlevels
  obtain ⟨t, hrun, hends, hs, hff, hcall, hdin⟩ := runCommand_read_scripted (by rw [hupc]) hl hcalls hlevels
  obtain ⟨htrace, hraw, hfault, hcs, hclk, hresp, -⟩ := hends.read_succeeds hd hs hff
  exact ⟨t, hrun, htrace, hraw, hfault, hresp, hends.read_lifecycle.trans hl, hcs, hclk, hcall, hdin⟩

/-- Any thirteen levels are those of twelve data bits and a fault bit. -/
theorem exists_scriptOf {l : List Level} (h : l.length = 13) : ∃ b f, l = scriptOf b f := by
  match l, h with
  | [b11, b10, b9, b8, b7, b6, b5, b4, b3, b2, b1, b0, f], _ =>
    exact ⟨![b0, b1, b2, b3, b4, b5, b6, b7, b8, b9, b10, b11], f, rfl⟩

/-- The bits a READ assembles, its fault bit and its response follow from the scripted levels and the unit. -/
theorem read_response_of_script {s : State} {b : Fin 12 → Level} {f : Level} (hupc : s.upc = ⟨.idle, 0#6⟩)
    (hl : s.lifecycle = .ready) (hcalls : s.callScript.take 49 = List.replicate 49 none)
    (hlevels : s.dinScript.take 13 = scriptOf b f) :
    ∃ t, runCommand (bareCmd 0x40#8) s = .next t ∧ (∀ j : Fin 12, t.raw.getLsbD j.val = decide (b j = .high)) ∧
      t.fault = f.bit ∧ t.resp = readResponse s.unit t.raw f := by
  obtain ⟨t, hrun, hends, hs, hff, -, -⟩ := runCommand_read_scripted (b := b) (f := f)
    (calls := s.callScript.drop 49) (levels := s.dinScript.drop 13) (by rw [hupc]) hl
    (by rw [← hcalls, List.take_append_drop]) (by rw [← hlevels, List.take_append_drop])
  obtain ⟨hbits, hfault, r, ht, hword, -⟩ := hends.read_passed hs hff
  exact ⟨t, hrun, hbits, hfault, hword ▸ congrArg State.resp ht⟩

/-- Settles O57: both READs assemble the same bits. -/
theorem readResponseDependsOnlyOnTheBits : Obligations.ReadResponseDependsOnlyOnTheBits := by
  intro s1 s2 hupc1 hupc2 hl1 hl2 hunit hcalls1 hcalls2 hlen hlevels
  obtain ⟨b, f, hscript⟩ := exists_scriptOf (l := s1.dinScript.take 13) (by rw [List.length_take, min_eq_left hlen])
  obtain ⟨t1, hrun1, hbits1, hfault1, hresp1⟩ := read_response_of_script hupc1 hl1 hcalls1 hscript
  obtain ⟨t2, hrun2, hbits2, hfault2, hresp2⟩ := read_response_of_script hupc2 hl2 hcalls2 (hlevels ▸ hscript)
  have hraw : t1.raw = t2.raw :=
    BitVec.eq_of_getLsbD_eq fun i hi => (hbits1 ⟨i, hi⟩).trans (hbits2 ⟨i, hi⟩).symm
  exact ⟨t1, t2, hrun1, hrun2, by rw [hresp1, hresp2, hunit, hraw], hraw, hfault1.trans hfault2.symm⟩

end Sys2Proof.Machine

/-!
The sequencer (41_sequencer.md R130 to R153): what the ROM gives at the entries of the twelve samples, the ends of INIT
and TEARDOWN, the pin levels during a READ, and the counts of a READ's waveform.
-/

namespace Sys2Proof.Machine

/-! ### The ROM -/

/-- The ROM gives every entry of a micro-program: `UPC.idx` can count that far. -/
theorem fetchMicro_of_entry {p : Prog} {n : Nat} {i : Instr} (h : (programInstrs p)[n]? = some i) :
    fetchMicro ⟨p, BitVec.ofNat 6 n⟩ = .micro i := by
  have hlt : n < 64 := by
    have := (List.getElem?_eq_some_iff.mp h).1
    have := programInstrs_length_lt p
    omega
  simp [fetchMicro_eq, Nat.mod_eq_of_lt hlt, h]

/-- The twelve samples of `ReadP`, most significant bit first, each inside its clock pulse (R151). -/
theorem readP_sample_entries : ∀ j : Fin 12,
    (programInstrs .readP)[8 + 3 * j.val]? = some .ckh ∧
    (programInstrs .readP)[9 + 3 * j.val]? = some (.smpd ⟨11 - j.val, by omega⟩) ∧
    (programInstrs .readP)[10 + 3 * j.val]? = some .ckl := by
  decide

/-- Settles O5: the lengths and the sample triples are those of the micro-programs as lists of instructions. -/
theorem romListing : Obligations.RomListing := by
  refine ⟨rom_length .initP, (rom_length .readP).trans readP_length, rom_length .tdP, fun j => ?_⟩
  obtain ⟨hckh, hsmpd, hckl⟩ := readP_sample_entries j
  exact ⟨fetchMicro_of_entry hckh, fetchMicro_of_entry hsmpd, fetchMicro_of_entry hckl⟩

/-! ### The ends of INIT and TEARDOWN -/

/-- Settles O25: RDY and RLS write the lifecycle and respond Ok, under the guard of a running micro-program. -/
theorem rdyAndRlsComplete : Obligations.RdyAndRlsComplete := fun _ hb =>
  ⟨whileRunning_of_busy hb _, whileRunning_of_busy hb _⟩

/-! ### The pin levels during a READ -/

/-- Settles O44: an entry of `ReadP` that writes one of the two pins fixes its level, the others keep both. -/
theorem stepKeepsReadLevels : Obligations.StepKeepsReadLevels := fun _ _ => step_keeps_readLevels

/-! ### The waveform of a READ -/

/-- The events of a READ that are neither reads nor writes to clock (R151). -/
def readControlEvents (cs : PinId) : List Event :=
  [.write cs .low, .wait .tCslow, .write cs .high, .wait .tConv, .write cs .low, .wait .tPulse, .wait .tPulse,
    .write cs .high]

/-- A sample is a pulse with a read in it. -/
theorem count_sampleEvents {e : Event} (he : ∀ p l, e ≠ .read p l) (clk din : PinId) (l : Level) :
    (sampleEvents clk din l).count e = (pulseEvents clk).count e := by
  simp [sampleEvents, pulseEvents, List.count_cons, (he din l).symm]

theorem count_flatMap_sampleEvents {e : Event} (he : ∀ p l, e ≠ .read p l) (clk din : PinId) (b : Fin 12 → Level)
    (is : List (Fin 12)) :
    (is.flatMap fun i => sampleEvents clk din (b i)).count e = is.length * (pulseEvents clk).count e := by
  simp [List.count_flatMap, Function.comp_def, count_sampleEvents he]

/-- A held pulse is a pulse with a delay in it. -/
theorem count_heldPulseEvents (e : Event) (clk : PinId) :
    (heldPulseEvents clk).count e = (pulseEvents clk).count e + [Event.wait .tPulse].count e := by
  simp only [heldPulseEvents, pulseEvents, List.count_cons, List.count_nil]
  omega

/-- Apart from its reads a READ is sixteen clock pulses and its chip-select writes and delays (R151). -/
theorem count_readEvents {e : Event} (he : ∀ p l, e ≠ .read p l) (cs clk din : PinId) (b : Fin 12 → Level)
    (f : Level) :
    (readEvents cs clk din b f).count e = (readControlEvents cs).count e + 16 * (pulseEvents clk).count e := by
  simp only [readEvents, List.count_append, count_flatMap_sampleEvents he, count_sampleEvents he, count_heldPulseEvents,
    List.length_cons, List.length_nil]
  simp only [readControlEvents, List.count_cons, List.count_nil]
  omega

/-- How many times data-in is read, at either level. -/
def readCount (din : PinId) (evs : List Event) : Nat := evs.count (.read din .low) + evs.count (.read din .high)

theorem readCount_append (din : PinId) (l m : List Event) :
    readCount din (l ++ m) = readCount din l + readCount din m := by
  simp only [readCount, List.count_append]
  omega

/-- A sample reads data-in once, at whichever level it stands. -/
theorem readCount_sampleEvents (clk din : PinId) (l : Level) : readCount din (sampleEvents clk din l) = 1 := by
  cases l <;> simp [readCount, sampleEvents]

theorem readCount_flatMap_sampleEvents (clk din : PinId) (b : Fin 12 → Level) (is : List (Fin 12)) :
    readCount din (is.flatMap fun i => sampleEvents clk din (b i)) = is.length := by
  induction is with
  | nil => rfl
  | cons i is ih =>
    rw [List.flatMap_cons, readCount_append, readCount_sampleEvents, ih, List.length_cons, Nat.add_comm]

/-- A READ reads data-in in its thirteen samples and nowhere else (R151). -/
theorem readCount_readEvents (cs clk din : PinId) (b : Fin 12 → Level) (f : Level) :
    readCount din (readEvents cs clk din b f) = 13 := by
  simp only [readEvents, readCount_append, readCount_flatMap_sampleEvents, readCount_sampleEvents]
  simp [readCount, pulseEvents, heldPulseEvents]

/-- Settles O60: the pulses and the control events are counted apart, which distinct pins keep from being confused. -/
theorem readTraceCounts : Obligations.ReadTraceCounts := by
  rintro cs clk din b f ⟨hcc, -, -⟩
  refine ⟨rfl, ?_, ?_, ?_, ?_, readCount_readEvents cs clk din b f, ?_, ?_, ?_⟩ <;>
    rw [count_readEvents (by simp)] <;>
    simp [readControlEvents, pulseEvents, hcc, hcc.symm]

end Sys2Proof.Machine

/-!
The deserializer (42_deserializer.md R160 to R166): a sample of a zero bit adds the bit's weight to RAW, a READ keeps
the bits not yet sampled at zero, and the indexed sum is what a shift register ends with.
-/

namespace Sys2Proof.Machine

/-- The number of a level is that of its bit being 1 (R9). -/
theorem toNat_decide_eq_high (l : Level) : (decide (l = .high)).toNat = l.toNat := by
  cases l <;> rfl

/-! ### The sum -/

/-- Setting a bit of RAW that is 0 adds its weight: the sums of the bits differ in that one summand (R161, R164). -/
theorem setRawBit_toNat {raw : BitVec 12} {i : Fin 12} (b : Level) (h : raw.getLsbD i.val = false) :
    (setRawBit raw i b).toNat = raw.toNat + b.toNat * 2 ^ i.val := by
  have hbit (j : Fin 12) : ((setRawBit raw i b).getLsbD j.val).toNat * 2 ^ j.val =
      (raw.getLsbD j.val).toNat * 2 ^ j.val + if j = i then b.toNat * 2 ^ i.val else 0 := by
    rw [setRawBit_get]
    by_cases hj : j = i
    · subst hj
      rw [if_pos rfl, if_pos rfl, h, toNat_decide_eq_high, Bool.toNat_false, Nat.zero_mul, Nat.zero_add]
    · rw [if_neg hj, if_neg hj, Nat.add_zero]
  rw [toNat_eq_sum_bits (setRawBit raw i b), Finset.sum_congr rfl fun j _ => hbit j, Finset.sum_add_distrib,
    ← toNat_eq_sum_bits, Finset.sum_ite_eq' Finset.univ i, if_pos (Finset.mem_univ i)]

/-- Settles O21: what SMPD writes to RAW is `setRawBit`, which adds where the bit was 0. -/
theorem smpdAddsItsWeight : Obligations.SmpdAddsItsWeight := fun s i hb ha hbit =>
  ⟨_, exec_of_call_succeeds (i := .smpd i) hb rfl rfl ha, setRawBit_toNat s.dinAnswer hbit⟩

/-- Settles O43, by the shape of the step: a READ samples its bits from the top. -/
theorem stepKeepsUnsampledZero : Obligations.StepKeepsUnsampledZero := fun _ _ => step_keeps_unsampledZero

/-! ### The shift register -/

/-- The new bit comes in at bit 0 (R166). -/
theorem shiftIn_getLsbD_zero (S : BitVec 12) (b : Level) : (shiftIn S b).getLsbD 0 = decide (b = .high) := by
  refine BitVec.getLsbD_append.trans ?_
  cases b <;> rfl

/-- Every other bit moves up by one place (R166). -/
theorem shiftIn_getLsbD_succ (S : BitVec 12) (b : Level) {j : Nat} (hj : j < 11) :
    (shiftIn S b).getLsbD (j + 1) = S.getLsbD j := by
  refine BitVec.getLsbD_append.trans ?_
  simp [hj]

/-- Bit `j` of a shift register cleared at the start is the bit fed in `j` samples before the last one (R166). -/
theorem foldl_shiftIn_getLsbD (bs : List Level) {j : Nat} (hj : j < 12) :
    (bs.foldl shiftIn 0#12).getLsbD j = decide (bs.reverse[j]? = some .high) := by
  induction bs using List.reverseRecOn generalizing j with
  | nil => simp
  | append_singleton bs b ih =>
    rw [List.foldl_concat, List.reverse_concat]
    cases j with
    | zero => rw [shiftIn_getLsbD_zero, List.getElem?_cons_zero, decide_eq_decide, Option.some_inj]
    | succ j => rw [shiftIn_getLsbD_succ _ _ (by omega), ih (by omega), List.getElem?_cons_succ]

/-- Settles O34: read backwards, the indices sampled are those of the bits, so the register holds the bits summed. -/
theorem shiftRegisterAgrees : Obligations.ShiftRegisterAgrees := by
  intro b
  refine toNat_eq_indexedSum fun j => ?_
  have hrev : ([11, 10, 9, 8, 7, 6, 5, 4, 3, 2, 1, 0] : List (Fin 12)).reverse = List.finRange 12 := by decide
  rw [foldl_shiftIn_getLsbD _ j.isLt, ← List.map_reverse, hrev]
  simp

end Sys2Proof.Machine

/-!
The converter (43_converter.md R180 to R190): its exact numbers, the scaled integers that carry them, and CONV.
-/

namespace Sys2Proof.Machine

/-! ### The scaled integer as a number -/

/-- A raw reading has twelve bits (R182). -/
theorem raw_toNat_le (r : BitVec 12) : r.toNat ≤ 4095 := Nat.le_of_lt_succ r.isLt

@[simp] theorem scaledValue_raw_toNat (r : BitVec 12) : (scaledValue .raw r).toNat = r.toNat :=
  BitVec.toNat_setWidth_of_le (by decide)

@[simp] theorem scaledValue_celsius_toNat (r : BitVec 12) : (scaledValue .celsius r).toNat = r.toNat :=
  BitVec.toNat_setWidth_of_le (by decide)

/-- The sixteen bits do not wrap: `9 * 4095 + 640` is below `2 ^ 16` (R186). -/
@[simp] theorem scaledValue_fahrenheit_toNat (r : BitVec 12) :
    (scaledValue .fahrenheit r).toNat = 9 * r.toNat + 640 := by
  have hr := raw_toNat_le r
  have hmod : (scaledValue .fahrenheit r).toNat = (9 * r.toNat % 2 ^ 16 + 640) % 2 ^ 16 := by
    simp [scaledValue]
  omega

/-! ### The exact number -/

theorem convert_raw (r : BitVec 12) : convert .raw r = r.toNat := rfl

theorem convert_celsius (r : BitVec 12) : convert .celsius r = (r.toNat : ℚ) / 4 :=
  mul_one_div _ _

theorem convert_fahrenheit (r : BitVec 12) : convert .fahrenheit r = (9 * (r.toNat : ℚ) + 640) / 20 := by
  rw [convert]
  ring

theorem scale_pos (u : TempUnit) : 0 < scale u := by
  cases u <;> norm_num [scale]

/-- The scaled integer carries the exact number (R186). -/
theorem scaledValue_mul_scale (u : TempUnit) (r : BitVec 12) :
    ((scaledValue u r).toNat : ℚ) * scale u = convert u r := by
  cases u with
  | raw => rw [scaledValue_raw_toNat, scale, mul_one, convert_raw]
  | celsius => rw [scaledValue_celsius_toNat, scale, convert]
  | fahrenheit =>
    rw [scaledValue_fahrenheit_toNat, scale, convert_fahrenheit, mul_one_div]
    norm_num

/-! ### Order -/

theorem scaledValue_lt {r1 r2 : BitVec 12} (u : TempUnit) (h : r1.toNat < r2.toNat) :
    (scaledValue u r1).toNat < (scaledValue u r2).toNat := by
  cases u with
  | raw => rwa [scaledValue_raw_toNat, scaledValue_raw_toNat]
  | celsius => rwa [scaledValue_celsius_toNat, scaledValue_celsius_toNat]
  | fahrenheit =>
    rw [scaledValue_fahrenheit_toNat, scaledValue_fahrenheit_toNat]
    omega

/-- The exact numbers are ordered as the scaled integers are, for the scale is positive (R188). -/
theorem convert_lt {r1 r2 : BitVec 12} (u : TempUnit) (h : r1.toNat < r2.toNat) : convert u r1 < convert u r2 := by
  rw [← scaledValue_mul_scale, ← scaledValue_mul_scale]
  exact mul_lt_mul_of_pos_right (Nat.cast_lt.mpr (scaledValue_lt u h)) (scale_pos u)

/-- A strictly increasing conversion tells two raw readings apart (R188). -/
theorem convert_injective (u : TempUnit) : Function.Injective (convert u) := by
  intro r1 r2 h
  rcases lt_trichotomy r1.toNat r2.toNat with hlt | heq | hgt
  · exact absurd h (convert_lt u hlt).ne
  · exact BitVec.eq_of_toNat_eq heq
  · exact absurd h (convert_lt u hgt).ne'

/-! ### CONV -/

/-- With FAULT = 1 CONV responds `Fault` (R181). -/
theorem exec_conv_fault {s : State} (hb : s.busy) (hf : s.fault = 1#1) : exec .conv s = .next (s.respond .fault) := by
  rw [exec, execConv, whileRunning_of_busy hb, if_pos hf]

/-- Otherwise CONV responds with the scaled integer (R180, R186). -/
theorem exec_conv_value {s : State} (hb : s.busy) (hf : s.fault ≠ 1#1) :
    exec .conv s = .next (s.respond (.value (scaledValue s.unit s.raw))) := by
  rw [exec, execConv, whileRunning_of_busy hb, if_neg hf]

/-! ### The statements -/

/-- Settles O26: CONV responds by the fault test, and the word of a value is `0x10000` and the scaled integer. -/
theorem convCompletes : Obligations.ConvCompletes := by
  intro s hb
  by_cases hf : s.fault = 1#1
  · have hne : s.fault ≠ 0#1 := by rw [hf]; decide
    exact ⟨_, exec_conv_fault hb hf, rfl, fun _ => rfl, fun h => absurd h hne, fun h => absurd h hne,
      fun h => absurd h hne⟩
  · have hword : (s.respond (.value (scaledValue s.unit s.raw))).resp.toNat =
        0x10000 + (scaledValue s.unit s.raw).toNat := Response.word_value_toNat _
    refine ⟨_, exec_conv_value hb hf, rfl, fun h => absurd h hf, fun _ hu => ?_, fun _ hu => ?_, fun _ hu => ?_⟩
    · rw [hword, hu, scaledValue_raw_toNat]
    · rw [hword, hu, scaledValue_celsius_toNat]
    · rw [hword, hu, scaledValue_fahrenheit_toNat]

/-- Settles O30: the scaled integers as numbers, their bounds from those of the raw reading. -/
theorem scaledValueIsExact : Obligations.ScaledValueIsExact := by
  intro r
  have hr := raw_toNat_le r
  refine ⟨fun u => scaledValue_mul_scale u r, scaledValue_raw_toNat r, scaledValue_celsius_toNat r,
    scaledValue_fahrenheit_toNat r, ?_, ?_, ?_, ?_, rfl, rfl, rfl, convert_raw r, convert_celsius r,
    convert_fahrenheit r⟩
  · rwa [scaledValue_raw_toNat]
  · rwa [scaledValue_celsius_toNat]
  · rw [scaledValue_fahrenheit_toNat]; omega
  · rw [scaledValue_fahrenheit_toNat]; omega

/-- Settles O32: order first, and injectivity from it. -/
theorem conversionIsStrictlyIncreasing : Obligations.ConversionIsStrictlyIncreasing :=
  ⟨fun u _ _ h => ⟨convert_lt u h, scaledValue_lt u h⟩, fun u _ _ h => convert_injective u h⟩

/-- Settles O31: the formulas, and the bounds they give for `0 ≤ r ≤ 4095`. -/
theorem conversionFormulas : Obligations.ConversionFormulas := by
  intro r
  have h0 : (0 : ℚ) ≤ r.toNat := Nat.cast_nonneg _
  have hr : (r.toNat : ℚ) ≤ 4095 := Nat.cast_le_ofNat.mpr (raw_toNat_le r)
  refine ⟨convert_raw r, convert_celsius r, convert_fahrenheit r, rfl, h0, hr, ?_, ?_, ?_, ?_⟩
  · rw [convert_celsius]; linarith
  · rw [convert_celsius]; linarith
  · rw [convert_fahrenheit]; linarith
  · rw [convert_fahrenheit]; linarith

/-- Settles O33: exactly, by the definition of the conversion; in scaled integers, by their numbers. -/
theorem crossCheckIdentity : Obligations.CrossCheckIdentity := fun r =>
  ⟨rfl, rfl, rfl, by rw [scaledValue_fahrenheit_toNat, scaledValue_celsius_toNat]⟩

end Sys2Proof.Machine

/-!
Exceptions at admission (60_exceptions.md R203, R204): a command with no edge in the lifecycle, and a reserved command
word, which is tested before the lifecycle.
-/

namespace Sys2Proof.Machine

/-! ### A command with no edge in the lifecycle -/

/-- An exception raised at the admission of a command writes the response and nothing else (R110, R206). -/
theorem raise_present_of_idle {s : State} (hi : s.upc.prog = .idle) (x : Exc) :
    s.present.raise x = s.answer (.err x) :=
  raise_of_idle (s := s.present) hi x

theorem exec_read_of_idle {s : State} (hi : s.upc.prog = .idle) : exec .read s = .next s.admitRead :=
  whileIdle_of_idle hi _

theorem admitTeardown_uninitialized {s : State} (hl : s.lifecycle = .uninitialized) :
    s.admitTeardown = s.present.raise .invalidState := by
  rw [State.admitTeardown, hl]

/-- Settles O13, by the lifecycle test of each admission. -/
theorem wrongLifecycleIsInvalidState : Obligations.WrongLifecycleIsInvalidState := by
  intro s cs clk din hi
  have hraise : s.present.raise .invalidState = s.answer (.err .invalidState) := raise_present_of_idle hi _
  refine ⟨fun i hmem hl => ?init, fun hl => ?read, fun hl => ?teardown⟩
  case init =>
    have hne : s.lifecycle ≠ .uninitialized := by rcases hl with hl | hl <;> simp [hl]
    have hunit : ∃ u, (i, u) ∈ [(Instr.initRaw cs clk din, TempUnit.raw), (.initC cs clk din, .celsius),
        (.initF cs clk din, .fahrenheit)] := by
      simpa [TempUnit.exists_iff] using hmem
    obtain ⟨u, hu⟩ := hunit
    rw [exec_initInstr hi hu, State.admitInit_invalid hne, hraise]
    rfl
  case read =>
    have hne : s.lifecycle ≠ .ready := by rcases hl with hl | hl <;> simp [hl]
    rw [exec_read_of_idle hi, State.admitRead_invalid hne, hraise]
    rfl
  case teardown =>
    rw [exec_teardown_of_idle hi, admitTeardown_uninitialized hl, hraise]
    rfl

/-! ### A reserved command word -/

/-- A command word outside the five legal ones does not decode (R86, R92). -/
theorem decodeH_reserved {c : HostCmd} (hw : c.word ∉ [0x00#8, 0x10#8, 0x20#8, 0x40#8, 0x80#8]) :
    ∃ e, decodeH c = .error e := by
  cases hd : decodeH c with
  | error e => exact ⟨e, rfl⟩
  | ok i =>
    obtain ⟨op, hop, -⟩ := decodeH_eq_ok.mp hd
    have hlegal : op.word ∈ [0x00#8, 0x10#8, 0x20#8, 0x40#8, 0x80#8] := by
      rcases op with (_ | _ | _) | _ | _ <;> decide
    exact absurd (hop ▸ hlegal) hw

/-- The numbers of the five legal words (R86). -/
theorem ofNat_mem_legalWords {n : Nat} (hn : n < 256) :
    BitVec.ofNat 8 n ∈ [0x00#8, 0x10#8, 0x20#8, 0x40#8, 0x80#8] ↔
      n ∈ ({0x00, 0x10, 0x20, 0x40, 0x80} : Finset Nat) := by
  simp only [List.mem_cons, List.not_mem_nil, or_false, Finset.mem_insert, Finset.mem_singleton, BitVec.toNat_eq,
    BitVec.toNat_ofNat, Nat.reducePow, Nat.reduceMod, Nat.mod_eq_of_lt hn]

/-- The reserved words are the 256 without the five legal ones (R92). -/
theorem card_reservedWords : ((Finset.range 256).filter fun n =>
    BitVec.ofNat 8 n ∉ [0x00#8, 0x10#8, 0x20#8, 0x40#8, 0x80#8]).card = 251 := by
  rw [Finset.filter_congr fun n hn => not_congr (ofNat_mem_legalWords (Finset.mem_range.mp hn)),
    Finset.filter_notMem_eq_sdiff, Finset.card_sdiff_of_subset (by simp [Finset.insert_subset_iff]), Finset.card_range]
  rfl

/-- Settles O14: the word does not decode, so the step is the admission of a reserved word, which tests nothing. -/
theorem reservedWordIsIllegalCommand : Obligations.ReservedWordIsIllegalCommand := by
  refine ⟨fun s c rest hi hh hw => ?_, card_reservedWords⟩
  obtain ⟨e, he⟩ := decodeH_reserved hw
  rw [step_reserved hi hh he, State.admitReserved, raise_present_of_idle (by exact hi)]
  rfl

end Sys2Proof.Machine
